-- ==== Sys2Proof/Word.lean ====
section
/-! DEFINITION. The words the ports carry and the small types operands are made of
(spec/20_memory.md rule R63; spec/30_encoding.md rules R91, R92, R98). -/

namespace Sys2Proof

/-- The command word CW (rule R92). -/
abbrev CommandWord := BitVec 32

/-- The multiplexer word MW (rule R98). -/
abbrev MuxWord := BitVec 16

/-- The 64 bits one latch pulse presents per chain segment; bit k is position k (rules R38, R39). -/
abbrev Frame := BitVec 64

/-- The ports operations arrive on (rule R91). -/
inductive Port where
  | command
  | multiplexer
  | timer
  | reset
  deriving DecidableEq, Repr

/-- A word as it stands on one of the ports; the two strobes are one wire each (rule R98). -/
inductive PortWord where
  | command (w : CommandWord)
  | multiplexer (w : MuxWord)
  | timer (strobe : BitVec 1)
  | reset (strobe : BitVec 1)
  deriving DecidableEq, Repr

/-- The port a word stands on. -/
def PortWord.port : PortWord → Port
  | .command _ => .command
  | .multiplexer _ => .multiplexer
  | .timer _ => .timer
  | .reset _ => .reset

/-- A command's address, the pair (AMODE, AID) of rules R63 and R94; BROADCAST has no AID. -/
inductive Addr where
  | single (d : Nat)
  | group (g : Nat)
  | broadcast
  | reserved (aid : Nat)
  deriving DecidableEq, Repr

/-- The two execution contexts of rule R226, and the reset strobe's. -/
inductive Context where
  | command
  | tick
  | reset
  deriving DecidableEq, Repr

end Sys2Proof
end

