-- ==== Sys2Proof/Syntax.lean ====
section
/-! DEFINITION. The operations of the block, one constructor per row of spec/opcode_table.json
(spec/30_encoding.md rules R91, R108). Operands are unsigned naturals (spec/00_scope.md rule R12); their
field widths are checked in WellFormed. -/

namespace Sys2Proof

/-- One operation. The 13 encodings of UNSUPPORTED are 13 rows of the table, hence 13 constructors. -/
inductive Instr where
  | noteOn (addr : Addr) (freq : Nat)
  | noteOff (addr : Addr)
  | reset (addr : Addr)
  | unsupportedK0
  | unsupportedK4
  | unsupportedK5
  | unsupportedK6
  | unsupportedK7
  | unsupportedK8
  | unsupportedK9
  | unsupportedK10
  | unsupportedK11
  | unsupportedK12
  | unsupportedK13
  | unsupportedK14
  | unsupportedK15
  | setLine (index : Nat) (state : Bool)
  | flush
  | tick
  | init
  | shiftBit (seg : Nat) (bit : Bool)
  | latch
  deriving DecidableEq, Repr

/-- The KIND operand of an UNSUPPORTED operation (rule R102). -/
def Instr.unsupportedKind : Instr → Option Nat
  | .unsupportedK0 => some 0
  | .unsupportedK4 => some 4
  | .unsupportedK5 => some 5
  | .unsupportedK6 => some 6
  | .unsupportedK7 => some 7
  | .unsupportedK8 => some 8
  | .unsupportedK9 => some 9
  | .unsupportedK10 => some 10
  | .unsupportedK11 => some 11
  | .unsupportedK12 => some 12
  | .unsupportedK13 => some 13
  | .unsupportedK14 => some 14
  | .unsupportedK15 => some 15
  | .noteOn _ _ | .noteOff _ | .reset _ | .setLine _ _ | .flush | .tick | .init
  | .shiftBit _ _ | .latch => none

/-- The port an operation arrives on (rule R91); the pin micro-operations arrive on none. -/
def Instr.port : Instr → Option Port
  | .noteOn _ _ | .noteOff _ | .reset _
  | .unsupportedK0 | .unsupportedK4 | .unsupportedK5 | .unsupportedK6 | .unsupportedK7
  | .unsupportedK8 | .unsupportedK9 | .unsupportedK10 | .unsupportedK11 | .unsupportedK12
  | .unsupportedK13 | .unsupportedK14 | .unsupportedK15 => some .command
  | .setLine _ _ | .flush => some .multiplexer
  | .tick => some .timer
  | .init => some .reset
  | .shiftBit _ _ | .latch => none

/-- The context an operation is performed in (rules R91, R226). -/
def Instr.context : Instr → Context
  | .noteOn _ _ | .noteOff _ | .reset _
  | .unsupportedK0 | .unsupportedK4 | .unsupportedK5 | .unsupportedK6 | .unsupportedK7
  | .unsupportedK8 | .unsupportedK9 | .unsupportedK10 | .unsupportedK11 | .unsupportedK12
  | .unsupportedK13 | .unsupportedK14 | .unsupportedK15 => .command
  | .setLine _ _ | .flush | .tick | .shiftBit _ _ | .latch => .tick
  | .init => .reset

end Sys2Proof
end

