-- ==== Sys2Proof/WellFormed.lean ====
section
/-! DEFINITION. Which operations fit their encoding: every operand within the width of its field
(spec/30_encoding.md rules R92, R98). -/

namespace Sys2Proof

/-- AID is a 10-bit field (rule R92). -/
def Addr.wf : Addr → Bool
  | .single d => decide (d < 1024)
  | .group g => decide (g < 1024)
  | .broadcast => true
  | .reserved aid => decide (aid < 1024)

/-- FREQ is a 16-bit field (rule R92), INDEX a 14-bit field (rule R98). The pin micro-operations have no
encoding, so nothing of theirs must fit a field. -/
def Instr.wf : Instr → Bool
  | .noteOn addr freq => addr.wf && decide (freq < 65536)
  | .noteOff addr => addr.wf
  | .reset addr => addr.wf
  | .setLine index _ => decide (index < 16384)
  | .unsupportedK0 | .unsupportedK4 | .unsupportedK5 | .unsupportedK6 | .unsupportedK7
  | .unsupportedK8 | .unsupportedK9 | .unsupportedK10 | .unsupportedK11 | .unsupportedK12
  | .unsupportedK13 | .unsupportedK14 | .unsupportedK15
  | .flush | .tick | .init | .shiftBit _ _ | .latch => true

end Sys2Proof
end

