-- ==== Sys2Proof/Decode.lean ====
section
/-! DEFINITION. Decoding the words of the ports, and the encoder written from the same tables
(spec/30_encoding.md rules R92 to R98, R102, R108). -/

namespace Sys2Proof

/-- The field `w[hi:lo]` read as an unsigned number (spec/00_scope.md rule R12). -/
def field {n : Nat} (w : BitVec n) (hi lo : Nat) : Nat :=
  w.toNat / 2 ^ lo % 2 ^ (hi + 1 - lo)

/-- The address of a command word from its AMODE and AID fields (rules R94, R97). -/
def decodeAddr (amode aid : Nat) : Addr :=
  match amode with
  | 0 => .single aid
  | 1 => .group aid
  | 2 => .broadcast
  | _ => .reserved aid

/-- UNSUPPORTED with operand KIND (rules R93, R102), for the kinds that are not 1, 2 or 3. -/
def unsupportedOfKind (kind : Nat) : Instr :=
  match kind with
  | 4 => .unsupportedK4
  | 5 => .unsupportedK5
  | 6 => .unsupportedK6
  | 7 => .unsupportedK7
  | 8 => .unsupportedK8
  | 9 => .unsupportedK9
  | 10 => .unsupportedK10
  | 11 => .unsupportedK11
  | 12 => .unsupportedK12
  | 13 => .unsupportedK13
  | 14 => .unsupportedK14
  | 15 => .unsupportedK15
  | _ => .unsupportedK0

/-- `decode_CW` of rule R97; total on every 32-bit word. -/
def decodeCommand (w : CommandWord) : Instr :=
  let addr := decodeAddr (field w 27 26) (field w 25 16)
  match field w 31 28 with
  | 1 => .noteOn addr (field w 15 0)
  | 2 => .noteOff addr
  | 3 => .reset addr
  | kind => unsupportedOfKind kind

/-- Format M of rule R98; total on every 16-bit word (rule R103). -/
def decodeMux (w : MuxWord) : Instr :=
  if field w 15 15 = 0 then .setLine (field w 13 0) (field w 14 14 = 1) else .flush

/-- Why a port word is no operation. -/
inductive DecodeReject where
  /-- A strobe that is not asserted performs nothing (rule R98, "once per assertion"). Safe. -/
  | strobeNotAsserted (p : Port)
  deriving DecidableEq, Repr

/-- What the word on a port stands for; the port decides which map applies (rules R91, R108). -/
def decode : PortWord → Except DecodeReject Instr
  | .command w => .ok (decodeCommand w)
  | .multiplexer w => .ok (decodeMux w)
  | .timer b => if b = 1 then .ok .tick else .error (.strobeNotAsserted .timer)
  | .reset b => if b = 1 then .ok .init else .error (.strobeNotAsserted .reset)

/-- AMODE of an address (rule R94). -/
def Addr.amode : Addr → Nat
  | .single _ => 0
  | .group _ => 1
  | .broadcast => 2
  | .reserved _ => 3

/-- AID of an address; an unused field is written as zero (rule R96). -/
def Addr.aid : Addr → Nat
  | .single d => d
  | .group g => g
  | .broadcast => 0
  | .reserved aid => aid

/-- Format C assembled from its fields (rule R92). -/
def commandWord (kind amode aid freq : Nat) : CommandWord :=
  BitVec.ofNat 32 (kind * 2 ^ 28 + amode * 2 ^ 26 + aid * 2 ^ 16 + freq)

/-- Format M assembled from its fields (rule R98). -/
def muxWord (mop state index : Nat) : MuxWord :=
  BitVec.ofNat 16 (mop * 2 ^ 15 + state * 2 ^ 14 + index)

/-- The word of an operation, unused fields zero (rule R96); the pin micro-operations have none
(rule R98). -/
def encode : Instr → Option PortWord
  | .noteOn addr freq => some (.command (commandWord 1 addr.amode addr.aid freq))
  | .noteOff addr => some (.command (commandWord 2 addr.amode addr.aid 0))
  | .reset addr => some (.command (commandWord 3 addr.amode addr.aid 0))
  | .unsupportedK0 => some (.command (commandWord 0 0 0 0))
  | .unsupportedK4 => some (.command (commandWord 4 0 0 0))
  | .unsupportedK5 => some (.command (commandWord 5 0 0 0))
  | .unsupportedK6 => some (.command (commandWord 6 0 0 0))
  | .unsupportedK7 => some (.command (commandWord 7 0 0 0))
  | .unsupportedK8 => some (.command (commandWord 8 0 0 0))
  | .unsupportedK9 => some (.command (commandWord 9 0 0 0))
  | .unsupportedK10 => some (.command (commandWord 10 0 0 0))
  | .unsupportedK11 => some (.command (commandWord 11 0 0 0))
  | .unsupportedK12 => some (.command (commandWord 12 0 0 0))
  | .unsupportedK13 => some (.command (commandWord 13 0 0 0))
  | .unsupportedK14 => some (.command (commandWord 14 0 0 0))
  | .unsupportedK15 => some (.command (commandWord 15 0 0 0))
  | .setLine index state => some (.multiplexer (muxWord 0 state.toNat index))
  | .flush => some (.multiplexer (muxWord 1 0 0))
  | .tick => some (.timer 1)
  | .init => some (.reset 1)
  | .shiftBit _ _ => none
  | .latch => none

/-- A row's word on the port of that width. The two strobes have one width and one word between them, and
the port is not given: a strobe is read as the timer's (log 7). -/
def tableWord (nbits w : Nat) : Option PortWord :=
  if nbits = 32 then some (.command (BitVec.ofNat 32 w))
  else if nbits = 16 then some (.multiplexer (BitVec.ofNat 16 w))
  else if nbits = 8 ∨ nbits = 1 then some (.timer (BitVec.ofNat 1 w))
  else none

/-- What the decoder reads from a row's word. -/
def decodeTableWord (nbits w : Nat) : Option Instr :=
  match tableWord nbits w with
  | none => none
  | some pw => (decode pw).toOption

end Sys2Proof
end

