-- ==== Sys2Proof/Config.lean ====
section
/-! DEFINITION. The implementation parameters of spec/00_scope.md rule R8, as plain data, their defaults,
and the values the spec leaves unspecified. The parameters are a field of State (spec/10_state.md rule R35:
"For a model that wants them as fields"), so a statement about every state is about every configuration
(log 1). -/

namespace Sys2Proof

/-- Direction of travel (rule R22). -/
inductive Dir where
  | fwd
  | rev
  deriving DecidableEq, Repr

/-- HALF_BITS, fixed by the source (rule R8). -/
def halfBits : Nat := 32

/-- FRAME_BITS = 2 × HALF_BITS (rule R8). -/
def frameBits : Nat := 2 * halfBits

/-- The per-drive rows of the configuration tables: LINE_STEP, LINE_DIR, MAX_POS, FREQ_MIN, FREQ_MAX. -/
structure DriveConfig where
  lineStep : Nat
  lineDir : Nat
  maxPos : Nat
  freqMin : Nat
  freqMax : Nat
  deriving DecidableEq, Repr

/-- The parameters of rule R8 but for the input OUT_OK. N_DRIVES and N_GROUPS are the lengths of their
tables; a group is the list of the drives it names. -/
structure Config where
  nSeg : Nat
  groupBits : Nat
  linesPerDrive : Nat
  drives : List DriveConfig
  fwdLevel : Bool
  revLevel : Bool
  startDir : Dir
  tickRate : Nat
  periodMax : Nat
  groups : List (List Nat)
  bankInit : List Bool
  initDirty : Bool
  deriving DecidableEq, Repr

namespace Config

/-- N_LINES = FRAME_BITS × N_SEG. -/
def nLines (c : Config) : Nat := frameBits * c.nSeg

/-- N_DRIVES, the size of the configuration table (rule R20). -/
def nDrives (c : Config) : Nat := c.drives.length

/-- Every entry of the two line tables; rule R61 asks that all be distinct. -/
def lineTable (c : Config) : List Nat :=
  c.drives.flatMap fun dc => [dc.lineStep, dc.lineDir]

/-- The default line tables of rule R61, with given travel limit; frequency range at its default. -/
def defaultDrive (linesPerDrive maxPos d : Nat) : DriveConfig where
  lineStep := d * linesPerDrive
  lineDir := d * linesPerDrive + 1
  maxPos := maxPos
  freqMin := 1
  freqMax := 65535

/-- The defaults of rule R8 for one segment. R8 leaves three parameters OPEN, so they are arguments. -/
def withDefaults (tickRate maxPos : Nat) (initDirty : Bool) : Config where
  nSeg := 1
  groupBits := 8
  linesPerDrive := 8
  drives := (List.range 8).map (defaultDrive 8 maxPos)
  fwdLevel := false
  revLevel := true
  startDir := .fwd
  tickRate := tickRate
  periodMax := 65535
  groups := []
  bankInit := List.replicate 64 false
  initDirty := initDirty

/-- The configuration State.reset carries. DESIGN CHOICE (log 2): the source's scenario values 10000 and
200, which the spec uses as test values only (D28), and the recommended INIT_DIRTY = 1 (D18). -/
def scenario : Config := withDefaults 10000 200 true

/-- What SR of a segment holds after the n-th INIT: "unspecified: any value" (rule R46, U1; log 3). -/
opaque freeShiftStage : Nat → Nat → Frame

/-- What OUT of a segment holds after the n-th INIT: "unspecified: any value" (rule R46, U1; log 3). -/
opaque freeOutStage : Nat → Nat → Frame

end Config

end Sys2Proof
end

