-- ==== Sys2Proof/Machine/State.lean ====
section
/-! DEFINITION. The state of the block (spec/10_state.md), what can stop a step, and the state after reset
(rule R46). -/

namespace Sys2Proof.Machine

/-- TONE[d], one field so that a command replaces it in one write (rule R23). -/
inductive Tone where
  | silent
  | active (period : Nat)
  deriving DecidableEq, Repr

/-- One record of the drive table (rule R20); its numbers are unsigned naturals and the direction an
enumeration (spec/00_scope.md rule R12; log 6). -/
@[ext]
structure Drive where
  pos : Nat
  dir : Dir
  tone : Tone
  cnt : Nat
  deriving DecidableEq, Repr

/-- One chain segment: its three pins (rule R40), its shift stage SR (rule R38) and its latched outputs OUT
(rule R39). Bit k of a frame is stage k, stage 0 nearest SER. -/
@[ext]
structure Segment where
  ser : Bool
  srclk : Bool
  rclk : Bool
  sr : Frame
  out : Frame
  deriving DecidableEq, Repr

/-- The pin events of rule R41. -/
inductive PinEvent where
  | ser (seg : Nat) (level : Bool)
  | srclkRise (seg : Nat)
  | srclkFall (seg : Nat)
  | rclkRise
  | rclkFall
  deriving DecidableEq, Repr

/-- The Frame Decoder's errors (spec/60_exceptions.md rule R210), raised outside the block. -/
inductive DecodeError where
  | truncated
  | malformed
  | versionMismatch
  deriving DecidableEq, Repr

/-- The diagnostic events of rule R42. -/
inductive DiagEvent where
  | unsupported (kind : Nat)
  | outputUnavailable
  | decodeError (e : DecodeError)
  deriving DecidableEq, Repr

/-- What reaches the block from outside: a word on a port, a new level of OUT_OK (spec/00_scope.md rule
R9), or a frame the decoder dropped, which the decoder may have logged (rules R42, R213; log 15). -/
inductive Input where
  | word (w : PortWord)
  | outOk (level : Bool)
  | decodeError (e : DecodeError) (logged : Bool)
  deriving DecidableEq, Repr

/-- The block. `cfg` never changes (rule R44). `inputs` is the order of whole operations still to be
performed, head first (spec/20_memory.md rule R69; log 5); `draws` numbers the free chain contents
(log 3); both are the model's own fields. -/
@[ext]
structure State where
  cfg : Config
  drives : List Drive
  bank : List Bool
  dirty : Bool
  halted : Bool
  unsupCount : BitVec 32
  chain : List Segment
  pins : List PinEvent
  diag : List DiagEvent
  outOk : Bool
  inputs : List Input
  draws : Nat
  deriving DecidableEq, Repr

/-- What stops the machine. -/
inductive Fault where
  /-- SHIFT_BIT on a segment the chain does not have. FLUSH never asks for one (rule R183). Safe (log 9). -/
  | noSuchSegment
  deriving DecidableEq, Repr

/-- What the model gives no meaning to. -/
inductive Refusal where
  /-- An instruction whose meaning is not written. Raised by no arm of exec in this model. Safe. -/
  | notModelled (mnemonic : String)
  /-- INIT on a configuration that breaks a constraint of rule R8: "the model refuses it" (rule R243).
  Safe. -/
  | badConfiguration
  deriving DecidableEq, Repr

/-- A drive after INIT (rule R46). -/
def Drive.initial (c : Config) : Drive where
  pos := 0
  dir := c.startDir
  tone := .silent
  cnt := 0

/-- A segment after INIT: pins at 0, SR and OUT unspecified (rules R46, R242; log 3). -/
def Segment.initial (draw seg : Nat) : Segment where
  ser := false
  srclk := false
  rclk := false
  sr := Config.freeShiftStage draw seg
  out := Config.freeOutStage draw seg

/-- The state after INIT (rule R46) under a configuration, with the environment's level and list of inputs
as they stand. -/
def State.afterInit (c : Config) (draw : Nat) (outOk : Bool) (inputs : List Input) : State where
  cfg := c
  drives := List.replicate c.nDrives (Drive.initial c)
  bank := c.bankInit
  dirty := c.initDirty
  halted := false
  unsupCount := 0
  chain := (List.range c.nSeg).map (Segment.initial draw)
  pins := []
  diag := []
  outOk := outOk
  inputs := inputs
  draws := draw + 1

/-- The machine right after reset, under the configuration of log 2, nothing arrived yet (log 5) and the
output path available (log 4). -/
def State.reset : State := State.afterInit Config.scenario 0 true []

end Sys2Proof.Machine
end

