-- ==== Sys2Proof/Machine/ConfigCheck.lean ====
section
/-! DEFINITION. The configuration check of INIT (spec/70_reset_and_hazards.md rule R243): the constraints
of spec/00_scope.md rule R8. -/

namespace Sys2Proof.Machine

/-- The constraints on one drive's rows of the tables. -/
abbrev DriveConfigValid (c : Config) (dc : DriveConfig) : Prop :=
  dc.lineStep < c.nLines ∧ dc.lineDir < c.nLines ∧
  1 ≤ dc.maxPos ∧ dc.maxPos ≤ 65535 ∧
  1 ≤ dc.freqMin ∧ dc.freqMin ≤ dc.freqMax ∧ dc.freqMax ≤ 65535

/-- Every constraint of rule R8. -/
abbrev ConfigValid (c : Config) : Prop :=
  1 ≤ c.nSeg ∧ c.groupBits ∣ frameBits ∧ 2 ≤ c.linesPerDrive ∧ 1 ≤ c.nDrives ∧
  (∀ dc ∈ c.drives, DriveConfigValid c dc) ∧ c.lineTable.Nodup ∧
  c.fwdLevel ≠ c.revLevel ∧ c.startDir = .fwd ∧
  1 ≤ c.tickRate ∧ c.tickRate < 2 ^ 32 ∧ 1 ≤ c.periodMax ∧
  (∀ g ∈ c.groups, ∀ d ∈ g, d < c.nDrives) ∧ c.bankInit.length = c.nLines

end Sys2Proof.Machine
end

