-- ==== Sys2Proof/Machine/Flags.lean ====
section
/-! DEFINITION. The flags DIRTY, HALTED and the view SILENT (spec/10_state.md rules R31 to R34), and the
views of TONE (rule R23). -/

namespace Sys2Proof.Machine

/-- SILENT[d], a view of TONE[d] (rules R23, R31). -/
def Drive.silent (dr : Drive) : Bool := dr.tone = .silent

/-- TONE[d] as the register PERIOD_REG[d]: 0 means Silent (rule R23). -/
def Drive.periodReg (dr : Drive) : Nat :=
  match dr.tone with
  | .silent => 0
  | .active p => p

/-- The one write that silences a drive (rules R123, R218). -/
def Drive.silence (dr : Drive) : Drive := { dr with tone := .silent }

/-- "a write to any line marks the bank dirty until the next hardware flush" (rule R33). -/
def State.markDirty (s : State) : State := { s with dirty := true }

/-- A FLUSH that completes clears DIRTY (rules R31, R183). -/
def State.clearDirty (s : State) : State := { s with dirty := false }

/-- HALTED is set by a FLUSH that finds OUT_OK = 0 (rules R31, R34). -/
def State.setHalted (s : State) : State := { s with halted := true }

end Sys2Proof.Machine
end

