-- ==== Sys2Proof/Machine/Operands.lean ====
section
/-! DEFINITION. The operand forms: resolving a drive address, a frequency's period, the level of a
direction, and the order of the bits of a frame (spec/20_memory.md rule R64; spec/40_command_ops.md rules
R121, R122; spec/30_encoding.md rule R99). -/

namespace Sys2Proof.Machine

/-- `resolve` of rule R64: the drives an address names, ascending; `none` is Invalid. -/
def resolve (c : Config) : Addr → Option (List Nat)
  | .single d => if d < c.nDrives then some [d] else none
  | .group g =>
    match c.groups[g]? with
    | some members => some ((List.range c.nDrives).filter fun d => members.contains d)
    | none => none
  | .broadcast => some (List.range c.nDrives)
  | .reserved _ => none

/-- `period_of` of rule R122: round to nearest, halves up (D13); `none` is Rejected. -/
def periodOf (c : Config) (f : Nat) : Option Nat :=
  if f = 0 then none
  else
    let p := (c.tickRate + f) / (2 * f)
    if p = 0 then none
    else if p > c.periodMax then none
    else some p

/-- The period NOTE_ON writes for a drive: its frequency range is judged first, then the mapping
(rule R121); `none` is OutOfRange for that drive. -/
def acceptedPeriod (c : Config) (d f : Nat) : Option Nat :=
  match c.drives[d]? with
  | none => none
  | some dc => if f < dc.freqMin ∨ f > dc.freqMax then none else periodOf c f

/-- `flip` of rule R13. -/
def flipDir : Dir → Dir
  | .fwd => .rev
  | .rev => .fwd

/-- DIR_LEVEL (rule R8). -/
def dirLevel (c : Config) : Dir → Bool
  | .fwd => c.fwdLevel
  | .rev => c.revLevel

/-- Positions of a segment in the order FLUSH sends them: half-word 1, then half-word 0, each bit 31
first (rules R99, R183). -/
def frameOrder : List Nat :=
  [1, 0].flatMap fun h => (List.range halfBits).reverse.map fun j => h * halfBits + j

/-- What `CommandError::OutOfRange` names (spec/60_exceptions.md rule R210): the address, or the drive and
the frequency. -/
inductive RangeError where
  | address (a : Addr)
  | frequency (d f : Nat)
  deriving DecidableEq, Repr

/-- The outcome label of a command operation (rule R120), with what was out of range. -/
inductive CommandOutcome where
  | ok
  | outOfRange (errors : List RangeError)
  | unsupported (kind : Nat)
  | halted
  deriving DecidableEq, Repr

end Sys2Proof.Machine
end

