-- ==== Sys2Proof/Machine/Ops.lean ====
section
/-! DEFINITION. The shared operations over the bank, the drive table, the chain and the traces; taking the
one exception of the block (spec/60_exceptions.md rule R218) and the return from it (rule R220). -/

namespace Sys2Proof.Machine

/-- BANK[i] (rule R13's MemRead). Only states without a valid configuration ask for a line outside the
bank (log 10). -/
def State.lineAt (s : State) (i : Nat) : Bool := s.bank[i]?.getD false

/-- OUT[i] = OUT[i div FRAME_BITS][i mod FRAME_BITS] (rule R39). -/
def State.outAt (s : State) (i : Nat) : Bool :=
  match s.chain[i / frameBits]? with
  | some g => g.out.getLsbD (i % frameBits)
  | none => false

/-- SET_LINE (rule R181); outside the bank nothing happens (rule R182). -/
def State.setLine (s : State) (i : Nat) (v : Bool) : State :=
  if i < s.cfg.nLines then State.markDirty { s with bank := s.bank.set i v } else s

/-- Write one record of the drive table. -/
def State.setDrive (s : State) (d : Nat) (dr : Drive) : State :=
  { s with drives := s.drives.set d dr }

/-- `for d in targets` over the drive table; each drive's write reads that drive alone, so the ascending
order of the loop is kept as one pass over the table (rule R129). -/
def State.updateDrives (s : State) (targets : List Nat) (f : Nat → Drive → Drive) : State :=
  { s with drives := s.drives.mapIdx fun d dr => if targets.contains d then f d dr else dr }

/-- What every addressed command has in common (rules R120, R121, R123, R124): nothing while HALTED,
nothing for an Invalid address, otherwise one write per target. -/
def State.addressed (s : State) (a : Addr) (f : Nat → Drive → Drive) : State :=
  if s.halted then s
  else
    match resolve s.cfg a with
    | none => s
    | some targets => s.updateDrives targets f

/-- `emit DIAG e` (rule R13). -/
def State.emitDiag (s : State) (e : DiagEvent) : State := { s with diag := s.diag ++ [e] }

/-- `emit PINS e` (rule R13). -/
def State.emitPin (s : State) (e : PinEvent) : State := { s with pins := s.pins ++ [e] }

/-- `min(n + 1, 2^32 - 1)` on the 32-bit counter (rules R36, R125). -/
def satIncr (n : BitVec 32) : BitVec 32 :=
  if n = BitVec.allOnes 32 then n else n + 1

/-- UNSUPPORTED (rule R125). -/
def State.unsupported (s : State) (kind : Nat) : State :=
  if s.halted then s
  else State.emitDiag { s with unsupCount := satIncr s.unsupCount } (.unsupported kind)

/-- `raise OutputUnavailable`, all of rule R218: HALTED set, every TONE Silent, one DIAG event. Nothing is
saved and control goes nowhere. -/
def State.raiseOutputUnavailable (s : State) : State :=
  State.emitDiag { s.setHalted with drives := s.drives.map Drive.silence } .outputUnavailable

/-- The one way out of the halt (rule R220): INIT's write of every piece of state (rules R46, R240). The
level of OUT_OK and what has arrived belong to the environment (logs 4 and 5). -/
def State.initialise (s : State) : State := State.afterInit s.cfg s.draws s.outOk s.inputs

/-- Write one segment of the chain. -/
def State.modifySegment (s : State) (seg : Nat) (f : Segment → Segment) : State :=
  { s with chain := s.chain.modify seg f }

/-- The shift stage after an active edge of SRCLK: stage k takes stage k-1, stage 0 takes SER
(rule R185). -/
def shiftIn (sr : Frame) (ser : Bool) : Frame := sr.shiftConcat ser

/-- Pin SER[seg] driven to a level. -/
def State.driveSer (s : State) (seg : Nat) (v : Bool) : State :=
  (s.modifySegment seg fun g => { g with ser := v }).emitPin (.ser seg v)

/-- The active edge of SRCLK[seg], with the chain's response (rule R185). -/
def State.raiseSrclk (s : State) (seg : Nat) : State :=
  (s.modifySegment seg fun g => { g with srclk := true, sr := shiftIn g.sr g.ser }).emitPin
    (.srclkRise seg)

/-- SRCLK[seg] back to idle. -/
def State.lowerSrclk (s : State) (seg : Nat) : State :=
  (s.modifySegment seg fun g => { g with srclk := false }).emitPin (.srclkFall seg)

/-- SHIFT_BIT (rule R185): data, then one clock pulse. -/
def State.shiftBit (s : State) (seg : Nat) (v : Bool) : State :=
  ((s.driveSer seg v).raiseSrclk seg).lowerSrclk seg

/-- The active edge of RCLK, one event for all segments: OUT takes SR (rule R186). -/
def State.raiseRclk (s : State) : State :=
  State.emitPin { s with chain := s.chain.map fun g => { g with rclk := true, out := g.sr } } .rclkRise

/-- RCLK back to idle. -/
def State.lowerRclk (s : State) : State :=
  State.emitPin { s with chain := s.chain.map fun g => { g with rclk := false } } .rclkFall

/-- LATCH (rule R186). -/
def State.latch (s : State) : State := s.raiseRclk.lowerRclk

/-- The 64 SHIFT_BITs of one segment's serial frame (rules R99, R183). -/
def State.shiftSegment (s : State) (seg : Nat) : State :=
  frameOrder.foldl (fun t k => t.shiftBit seg (t.lineAt (seg * frameBits + k))) s

/-- The frames of all segments, ascending (rules R183, R184). -/
def State.shiftAll (s : State) : State :=
  (List.range s.cfg.nSeg).foldl State.shiftSegment s

/-- FLUSH (rules R183, R187): OUT_OK is sampled once, at the start. -/
def State.flush (s : State) : State :=
  if s.outOk then s.shiftAll.latch.clearDirty else s.raiseOutputUnavailable

end Sys2Proof.Machine
end

