-- ==== Sys2Proof/Machine/Commands.lean ====
section
/-! DEFINITION. The command operations NOTE_ON, NOTE_OFF, RESET and UNSUPPORTED (spec/40_command_ops.md),
and the outcome label of each (rule R120). -/

namespace Sys2Proof.Machine

/-- NOTE_ON for one target (rule R121): TONE is replaced, or the drive is skipped. -/
def noteOnDrive (c : Config) (f d : Nat) (dr : Drive) : Drive :=
  match acceptedPeriod c d f with
  | some p => { dr with tone := .active p }
  | none => dr

/-- RESET for one target (rule R124). -/
def resetDrive (c : Config) (dr : Drive) : Drive :=
  { dr.silence with pos := 0, dir := c.startDir, cnt := 0 }

/-- NOTE_ON (rule R121). -/
def execNoteOn (addr : Addr) (freq : Nat) (s : State) : Host.Outcome State Fault Refusal :=
  .next (s.addressed addr (noteOnDrive s.cfg freq))

/-- NOTE_OFF (rule R123). -/
def execNoteOff (addr : Addr) (s : State) : Host.Outcome State Fault Refusal :=
  .next (s.addressed addr fun _ dr => dr.silence)

/-- RESET (rule R124). -/
def execReset (addr : Addr) (s : State) : Host.Outcome State Fault Refusal :=
  .next (s.addressed addr fun _ dr => resetDrive s.cfg dr)

/-- UNSUPPORTED(0) (rule R125). -/
def execUnsupportedK0 (s : State) : Host.Outcome State Fault Refusal := .next (s.unsupported 0)

/-- UNSUPPORTED(4) (rule R125). -/
def execUnsupportedK4 (s : State) : Host.Outcome State Fault Refusal := .next (s.unsupported 4)

/-- UNSUPPORTED(5) (rule R125). -/
def execUnsupportedK5 (s : State) : Host.Outcome State Fault Refusal := .next (s.unsupported 5)

/-- UNSUPPORTED(6) (rule R125). -/
def execUnsupportedK6 (s : State) : Host.Outcome State Fault Refusal := .next (s.unsupported 6)

/-- UNSUPPORTED(7) (rule R125). -/
def execUnsupportedK7 (s : State) : Host.Outcome State Fault Refusal := .next (s.unsupported 7)

/-- UNSUPPORTED(8) (rule R125). -/
def execUnsupportedK8 (s : State) : Host.Outcome State Fault Refusal := .next (s.unsupported 8)

/-- UNSUPPORTED(9) (rule R125). -/
def execUnsupportedK9 (s : State) : Host.Outcome State Fault Refusal := .next (s.unsupported 9)

/-- UNSUPPORTED(10) (rule R125). -/
def execUnsupportedK10 (s : State) : Host.Outcome State Fault Refusal := .next (s.unsupported 10)

/-- UNSUPPORTED(11) (rule R125). -/
def execUnsupportedK11 (s : State) : Host.Outcome State Fault Refusal := .next (s.unsupported 11)

/-- UNSUPPORTED(12) (rule R125). -/
def execUnsupportedK12 (s : State) : Host.Outcome State Fault Refusal := .next (s.unsupported 12)

/-- UNSUPPORTED(13) (rule R125). -/
def execUnsupportedK13 (s : State) : Host.Outcome State Fault Refusal := .next (s.unsupported 13)

/-- UNSUPPORTED(14) (rule R125). -/
def execUnsupportedK14 (s : State) : Host.Outcome State Fault Refusal := .next (s.unsupported 14)

/-- UNSUPPORTED(15) (rule R125). -/
def execUnsupportedK15 (s : State) : Host.Outcome State Fault Refusal := .next (s.unsupported 15)

/-- The targets NOTE_ON skips, each with the frequency it rejects (rules R121, R214). -/
def rejectedTargets (c : Config) (targets : List Nat) (f : Nat) : List RangeError :=
  (targets.filter fun d => (acceptedPeriod c d f).isNone).map fun d => .frequency d f

/-- The outcome label of an addressed command, `errors` giving the targets it skips. -/
def addressedOutcome (s : State) (a : Addr) (errors : List Nat → List RangeError) : CommandOutcome :=
  if s.halted then .halted
  else
    match resolve s.cfg a with
    | none => .outOfRange [.address a]
    | some targets => if errors targets = [] then .ok else .outOfRange (errors targets)

/-- The outcome label an operation yields from a state (rule R120); it is a label for tests and changes
nothing (log 13). Operations outside the command port have none. -/
def commandOutcome (i : Instr) (s : State) : Option CommandOutcome :=
  match i with
  | .noteOn a f => some (addressedOutcome s a fun targets => rejectedTargets s.cfg targets f)
  | .noteOff a => some (addressedOutcome s a fun _ => [])
  | .reset a => some (addressedOutcome s a fun _ => [])
  | i => i.unsupportedKind.map fun kind => if s.halted then .halted else .unsupported kind

end Sys2Proof.Machine
end

