-- ==== Sys2Proof/Machine/Initialisation.lean ====
section
/-! DEFINITION. INIT (spec/70_reset_and_hazards.md rules R240 to R243). -/

namespace Sys2Proof.Machine

/-- INIT (rule R240): the configuration is checked, then every piece of state takes its value of rule
R46. A configuration that breaks a constraint is refused (rule R243). -/
def execInit (s : State) : Host.Outcome State Fault Refusal :=
  if ConfigValid s.cfg then .next s.initialise else .refused .badConfiguration

end Sys2Proof.Machine
end

