-- ==== Sys2Proof/Machine/Multiplexer.lean ====
section
/-! DEFINITION. The multiplexer operations SET_LINE and FLUSH and the pin micro-operations SHIFT_BIT and
LATCH (spec/42_multiplexer_ops.md). Rules R181 and R183 do not test HALTED (log 8). -/

namespace Sys2Proof.Machine

/-- SET_LINE (rules R181, R182). -/
def execSetLine (index : Nat) (state : Bool) (s : State) : Host.Outcome State Fault Refusal :=
  .next (s.setLine index state)

/-- FLUSH (rules R183, R187). -/
def execFlush (s : State) : Host.Outcome State Fault Refusal := .next s.flush

/-- SHIFT_BIT (rule R185); SR, SER and SRCLK exist for the segments below N_SEG only (rules R38, R40;
log 9). -/
def execShiftBit (seg : Nat) (bit : Bool) (s : State) : Host.Outcome State Fault Refusal :=
  if seg < s.cfg.nSeg then .next (s.shiftBit seg bit) else .fault .noSuchSegment

/-- LATCH (rule R186). -/
def execLatch (s : State) : Host.Outcome State Fault Refusal := .next s.latch

end Sys2Proof.Machine
end

