-- ==== Sys2Proof/Machine/Scheduler.lean ====
section
/-! DEFINITION. The TICK operation (spec/41_scheduler_tick.md). -/

namespace Sys2Proof.Machine

/-- Whether a tick is this drive's step event: it is not silent and its count reaches the period, as
`CNT + 1 >= p` (rule R152). -/
def Drive.steps (dr : Drive) : Bool :=
  match dr.tone with
  | .silent => false
  | .active p => decide (dr.cnt + 1 ≥ p)

/-- POS one place on in the drive's direction (rules R22, R153). -/
def Drive.moved (dr : Drive) : Nat :=
  match dr.dir with
  | .fwd => dr.pos + 1
  | .rev => dr.pos - 1

/-- The step event and the boundary reversal after the move (rules R153, R154). -/
def Drive.stepEvent (maxPos : Nat) (dr : Drive) : Drive :=
  { dr with
    cnt := 0
    pos := dr.moved
    dir := if dr.moved = 0 ∨ dr.moved = maxPos then flipDir dr.dir else dr.dir }

/-- What one tick does to a drive's record (rules R151, R152). -/
def Drive.ticked (maxPos : Nat) (dr : Drive) : Drive :=
  match dr.tone with
  | .silent => dr
  | .active _ => if dr.steps then dr.stepEvent maxPos else { dr with cnt := dr.cnt + 1 }

/-- The direction line brought into agreement with DIR[d] (rule R155). -/
def State.reconcileLine (s : State) (line : Nat) (dir : Dir) : State :=
  if s.lineAt line = dirLevel s.cfg dir then s else s.setLine line (dirLevel s.cfg dir)

/-- The drive loop's body for drive d (rule R151): the record, the step line's toggle, the direction
line. -/
def State.tickDrive (s : State) (d : Nat) : State :=
  match s.cfg.drives[d]?, s.drives[d]? with
  | some dc, some dr =>
    let counted := s.setDrive d (dr.ticked dc.maxPos)
    let stepped :=
      if dr.steps then counted.setLine dc.lineStep (!counted.lineAt dc.lineStep) else counted
    stepped.reconcileLine dc.lineDir (dr.ticked dc.maxPos).dir
  | _, _ => s

/-- The drive loop over a list of drives. -/
def State.tickDrives (s : State) (ds : List Nat) : State := ds.foldl State.tickDrive s

/-- TICK, whole (rule R151): nothing while HALTED, the drives ascending, one FLUSH if DIRTY. -/
def State.tick (s : State) : State :=
  if s.halted then s
  else
    let looped := s.tickDrives (List.range s.cfg.nDrives)
    if looped.dirty then looped.flush else looped

/-- TICK (rule R151). -/
def execTick (s : State) : Host.Outcome State Fault Refusal := .next s.tick

end Sys2Proof.Machine
end

