-- ==== Sys2Proof/Machine/Dispatch.lean ====
section
/-! DEFINITION. One arm per operation: each calls its meaning. -/

namespace Sys2Proof.Machine

def exec (i : Instr) (s : State) : Host.Outcome State Fault Refusal :=
  match i with
  | .noteOn addr freq => Sys2Proof.Machine.execNoteOn addr freq s
  | .noteOff addr => Sys2Proof.Machine.execNoteOff addr s
  | .reset addr => Sys2Proof.Machine.execReset addr s
  | .unsupportedK0 => Sys2Proof.Machine.execUnsupportedK0 s
  | .unsupportedK4 => Sys2Proof.Machine.execUnsupportedK4 s
  | .unsupportedK5 => Sys2Proof.Machine.execUnsupportedK5 s
  | .unsupportedK6 => Sys2Proof.Machine.execUnsupportedK6 s
  | .unsupportedK7 => Sys2Proof.Machine.execUnsupportedK7 s
  | .unsupportedK8 => Sys2Proof.Machine.execUnsupportedK8 s
  | .unsupportedK9 => Sys2Proof.Machine.execUnsupportedK9 s
  | .unsupportedK10 => Sys2Proof.Machine.execUnsupportedK10 s
  | .unsupportedK11 => Sys2Proof.Machine.execUnsupportedK11 s
  | .unsupportedK12 => Sys2Proof.Machine.execUnsupportedK12 s
  | .unsupportedK13 => Sys2Proof.Machine.execUnsupportedK13 s
  | .unsupportedK14 => Sys2Proof.Machine.execUnsupportedK14 s
  | .unsupportedK15 => Sys2Proof.Machine.execUnsupportedK15 s
  | .setLine index state => Sys2Proof.Machine.execSetLine index state s
  | .flush => Sys2Proof.Machine.execFlush s
  | .tick => Sys2Proof.Machine.execTick s
  | .init => Sys2Proof.Machine.execInit s
  | .shiftBit seg bit => Sys2Proof.Machine.execShiftBit seg bit s
  | .latch => Sys2Proof.Machine.execLatch s

end Sys2Proof.Machine
end

