-- ==== Sys2Proof/Machine/Step.lean ====
section
/-! DEFINITION. One step: the head of the list of inputs is consumed and what it stands for is performed
(spec/20_memory.md rule R69; log 5). -/

namespace Sys2Proof.Machine

/-- The next input consumed. -/
def State.withInputs (s : State) (inputs : List Input) : State := { s with inputs := inputs }

/-- A dropped frame leaves the block as it is; the decoder may have written it to DIAG (spec/60_exceptions.md
rule R213, spec/10_state.md rule R42; log 15). -/
def State.frameDropped (s : State) (e : DecodeError) (logged : Bool) : State :=
  if logged then s.emitDiag (.decodeError e) else s

/-- One step. With nothing arrived the block stays as it is. A word that decodes is performed as one whole
operation; a strobe that is not asserted performs nothing (spec/30_encoding.md rule R98). -/
def step (s : State) : Host.Outcome State Fault Refusal :=
  match s.inputs with
  | [] => .next s
  | .outOk level :: rest => .next { s.withInputs rest with outOk := level }
  | .decodeError e logged :: rest => .next ((s.withInputs rest).frameDropped e logged)
  | .word w :: rest =>
    match decode w with
    | .ok i => exec i (s.withInputs rest)
    | .error _ => .next (s.withInputs rest)

/-- The word of a row placed on its port as the next input to be performed (log 5). -/
def State.withFetchWord (s : State) (nbits w : Nat) : State :=
  match tableWord nbits w with
  | some pw => s.withInputs (.word pw :: s.inputs)
  | none => s

end Sys2Proof.Machine
end

