-- ==== Sys2Proof/Safety.lean ====
section
/-! DEFINITION. What a sound state is: the invariants of the drive table (spec/10_state.md rule R27), the
shape the configuration fixes, idle clocks between operations (rule R40), silence while halted
(spec/60_exceptions.md rule R218), and outputs that show whole frames only (rule R190). -/

namespace Sys2Proof.Machine

/-- I1 to I4 of rule R27 for one drive. -/
abbrev DriveSound (c : Config) (dc : DriveConfig) (dr : Drive) : Prop :=
  dr.pos ≤ dc.maxPos ∧
  (dr.pos = 0 → dr.dir = .fwd) ∧ (dr.pos = dc.maxPos → dr.dir = .rev) ∧
  dr.cnt + 1 ≤ c.periodMax ∧
  (dr.tone = .silent ∨ (1 ≤ dr.periodReg ∧ dr.periodReg ≤ c.periodMax))

/-- The tables have the sizes the configuration fixes (rules R20, R37, R38). -/
abbrev State.Shaped (s : State) : Prop :=
  s.drives.length = s.cfg.nDrives ∧ s.bank.length = s.cfg.nLines ∧ s.chain.length = s.cfg.nSeg

/-- Idle level of SRCLK and RCLK is 0 (rule R40). -/
abbrev State.ClocksIdle (s : State) : Prop :=
  ∀ g ∈ s.chain, g.srclk = false ∧ g.rclk = false

/-- Every drive of the table is sound (rule R27). -/
abbrev State.DrivesSound (s : State) : Prop :=
  ∀ d < s.cfg.nDrives, ∀ dc ∈ s.cfg.drives[d]?, ∀ dr ∈ s.drives[d]?, DriveSound s.cfg dc dr

/-- A sound state. -/
abbrev State.Sound (s : State) : Prop :=
  ConfigValid s.cfg ∧ s.Shaped ∧ s.DrivesSound ∧ s.ClocksIdle ∧
  (s.halted = true → ∀ dr ∈ s.drives, dr.tone = .silent)

/-- Once a FLUSH has completed since INIT, the shift stage and the outputs hold the same whole frame, and
with a clean bank that frame is the bank (rules R163, R183, R190). -/
abbrev State.OutputsWhole (s : State) : Prop :=
  PinEvent.rclkRise ∈ s.pins →
    (∀ g ∈ s.chain, g.sr = g.out) ∧
    (s.dirty = false → ∀ i < s.cfg.nLines, s.outAt i = s.lineAt i)

/-- `TICKS n` of spec/30_encoding.md rule R107: TICK performed n times. -/
def ticks : Nat → State → Host.Outcome State Fault Refusal
  | 0, s => .next s
  | n + 1, s =>
    match exec .tick s with
    | .next t => ticks n t
    | .fault r => .fault r
    | .refused r => .refused r

/-- POS after n step events from (0, FWD) with travel limit M (spec/41_scheduler_tick.md rule R159). -/
def trianglePos (M n : Nat) : Nat :=
  if n % (2 * M) ≤ M then n % (2 * M) else 2 * M - n % (2 * M)

/-- DIR after n step events from (0, FWD) with travel limit M (rule R159). -/
def triangleDir (M n : Nat) : Dir := if n % (2 * M) < M then .fwd else .rev

/-- The state without its diagnostics, UNSUP_COUNT and DIAG (rule R230). -/
def State.withoutDiagnostics (s : State) : State := { s with unsupCount := 0, diag := [] }

end Sys2Proof.Machine
end

