-- ==== Sys2Proof/Certificates/Slice0/Obligations.lean ====
section
/-! DEFINITION. The statements for the provers. Rules R<n> are spec/'s, D<n> the decisions of
spec/92_eei_decisions.md, which the spec marks as its own choice, and log <n> the rows of
notes/assumptions/. -/

open Sys2Proof Sys2Proof.Machine

/-! ### Encoding -/

/-- Words of the spec's own decoding vectors V-D1 to V-D18 and the two strobes stand for the operations the
spec lists. The layouts are the spec's decision D15. -/
def Obligations.SpecWordsDecode : Prop :=
  decode (.command 0x100301B8) = .ok (.noteOn (.single 3) 440) ∧
  decode (.command 0x20030000) = .ok (.noteOff (.single 3)) ∧
  decode (.command 0x30030000) = .ok (.reset (.single 3)) ∧
  decode (.command 0x40000000) = .ok .unsupportedK4 ∧
  decode (.command 0x00000000) = .ok .unsupportedK0 ∧
  decode (.command 0xFFFFFFFF) = .ok .unsupportedK15 ∧
  decode (.command 0x180009C4) = .ok (.noteOn .broadcast 2500) ∧
  decode (.command 0x14020064) = .ok (.noteOn (.group 2) 100) ∧
  decode (.command 0x1C0301B8) = .ok (.noteOn (.reserved 3) 440) ∧
  decode (.multiplexer 0x4018) = .ok (.setLine 24 true) ∧
  decode (.multiplexer 0x0018) = .ok (.setLine 24 false) ∧
  decode (.multiplexer 0x8000) = .ok .flush ∧
  decode (.multiplexer 0xFFFF) = .ok .flush ∧
  decode (.timer 1) = .ok .tick ∧
  decode (.reset 1) = .ok .init

/-- Every command word decodes by its KIND, AMODE, AID and FREQ fields (the spec's decisions D15, D16). -/
def Obligations.CommandWordDecodesByField : Prop :=
  ∀ w : CommandWord, ∃ addr : Addr,
    (w.extractLsb' 26 2 = 0 → addr = .single (w.extractLsb' 16 10).toNat) ∧
    (w.extractLsb' 26 2 = 1 → addr = .group (w.extractLsb' 16 10).toNat) ∧
    (w.extractLsb' 26 2 = 2 → addr = .broadcast) ∧
    (w.extractLsb' 26 2 = 3 → addr = .reserved (w.extractLsb' 16 10).toNat) ∧
    (w.extractLsb' 28 4 = 1 →
      decode (.command w) = .ok (.noteOn addr (w.extractLsb' 0 16).toNat)) ∧
    (w.extractLsb' 28 4 = 2 → decode (.command w) = .ok (.noteOff addr)) ∧
    (w.extractLsb' 28 4 = 3 → decode (.command w) = .ok (.reset addr))

/-- Rule R102: a word whose KIND is not 1, 2 or 3 is no decoding error; it decodes to UNSUPPORTED(KIND),
which a running block counts, logs and otherwise ignores, so the next command is dispatched as usual. What
the count does at its greatest value is left to UnsupportedKindCountsAndLogs. -/
def Obligations.UnsupportedKindsDecodeAndAreIgnored : Prop :=
  ∀ w : CommandWord,
    w.extractLsb' 28 4 ≠ 1 → w.extractLsb' 28 4 ≠ 2 → w.extractLsb' 28 4 ≠ 3 →
    ∃ i, decode (.command w) = .ok i ∧ i.unsupportedKind = some (w.extractLsb' 28 4).toNat ∧
      ∀ s : State, s.halted = false → ∃ t : State, exec i s = .next t ∧
        t = { s with unsupCount := t.unsupCount, diag := t.diag } ∧
        (s.unsupCount.toNat + 1 < 2 ^ 32 → t.unsupCount.toNat = s.unsupCount.toNat + 1) ∧
        t.diag = s.diag ++ [.unsupported (w.extractLsb' 28 4).toNat]

/-- Every multiplexer word is a SET_LINE or a FLUSH, by bit 15 (the spec's decision D15); a strobe that is
not asserted is no operation. -/
def Obligations.MuxWordDecodesByField : Prop :=
  (∀ w : MuxWord,
    (w.getLsbD 15 = false →
      decode (.multiplexer w) = .ok (.setLine (w.extractLsb' 0 14).toNat (w.getLsbD 14))) ∧
    (w.getLsbD 15 = true → decode (.multiplexer w) = .ok .flush)) ∧
  (∀ b : BitVec 1,
    ((∃ i, decode (.timer b) = .ok i) ↔ b = 1) ∧ ((∃ i, decode (.reset b) = .ok i) ↔ b = 1))

/-- The masks and matches of the operation table select the operations (the spec's decision D15). -/
def Obligations.TableRowsSelectOperations : Prop :=
  (∀ w : CommandWord,
    (w &&& 0xF0000000 = 0x10000000 ↔ ∃ a f, decode (.command w) = .ok (.noteOn a f)) ∧
    (w &&& 0xF0000000 = 0x20000000 ↔ ∃ a, decode (.command w) = .ok (.noteOff a)) ∧
    (w &&& 0xF0000000 = 0x30000000 ↔ ∃ a, decode (.command w) = .ok (.reset a)) ∧
    (w &&& 0xF0000000 = 0x00000000 ↔ decode (.command w) = .ok .unsupportedK0) ∧
    (w &&& 0xF0000000 = 0x40000000 ↔ decode (.command w) = .ok .unsupportedK4) ∧
    (w &&& 0xF0000000 = 0x50000000 ↔ decode (.command w) = .ok .unsupportedK5) ∧
    (w &&& 0xF0000000 = 0x60000000 ↔ decode (.command w) = .ok .unsupportedK6) ∧
    (w &&& 0xF0000000 = 0x70000000 ↔ decode (.command w) = .ok .unsupportedK7) ∧
    (w &&& 0xF0000000 = 0x80000000 ↔ decode (.command w) = .ok .unsupportedK8) ∧
    (w &&& 0xF0000000 = 0x90000000 ↔ decode (.command w) = .ok .unsupportedK9) ∧
    (w &&& 0xF0000000 = 0xA0000000 ↔ decode (.command w) = .ok .unsupportedK10) ∧
    (w &&& 0xF0000000 = 0xB0000000 ↔ decode (.command w) = .ok .unsupportedK11) ∧
    (w &&& 0xF0000000 = 0xC0000000 ↔ decode (.command w) = .ok .unsupportedK12) ∧
    (w &&& 0xF0000000 = 0xD0000000 ↔ decode (.command w) = .ok .unsupportedK13) ∧
    (w &&& 0xF0000000 = 0xE0000000 ↔ decode (.command w) = .ok .unsupportedK14) ∧
    (w &&& 0xF0000000 = 0xF0000000 ↔ decode (.command w) = .ok .unsupportedK15)) ∧
  (∀ w : MuxWord,
    (w &&& 0x8000 = 0x0000 ↔ ∃ i v, decode (.multiplexer w) = .ok (.setLine i v)) ∧
    (w &&& 0x8000 = 0x8000 ↔ decode (.multiplexer w) = .ok .flush)) ∧
  (∀ b : BitVec 1,
    (b &&& 1 = 1 ↔ decode (.timer b) = .ok .tick) ∧ (b &&& 1 = 1 ↔ decode (.reset b) = .ok .init))

/-- Every well-formed operation that has a port has a word on that port, and the word decodes back to it,
every operand at every value its field admits (the encodings are the spec's decision D15). -/
def Obligations.EncodedOperationsDecodeBack : Prop :=
  ∀ i : Instr, i.wf = true → ∀ p, i.port = some p →
    ∃ w, encode i = some w ∧ w.port = p ∧ decode w = .ok i

/-- Whatever decodes is well formed, arrives on its own port and re-encodes to a word of the same meaning. -/
def Obligations.DecodedWordsReencode : Prop :=
  ∀ (w : PortWord) (i : Instr), decode w = .ok i →
    i.wf = true ∧ i.port = some w.port ∧ ∃ w', encode i = some w' ∧ decode w' = .ok i

/-- Fields an operation does not use are ignored (the spec's decision D33). -/
def Obligations.UnusedFieldsAreIgnored : Prop :=
  (∀ w w' : CommandWord, w.extractLsb' 28 4 = w'.extractLsb' 28 4 →
    ((w.extractLsb' 28 4 = 2 ∨ w.extractLsb' 28 4 = 3) →
      w.extractLsb' 16 12 = w'.extractLsb' 16 12 →
      decode (.command w) = decode (.command w')) ∧
    (w.extractLsb' 26 2 = 2 → w'.extractLsb' 26 2 = 2 →
      w.extractLsb' 0 16 = w'.extractLsb' 0 16 →
      decode (.command w) = decode (.command w')) ∧
    (w.extractLsb' 28 4 ≠ 1 → w.extractLsb' 28 4 ≠ 2 → w.extractLsb' 28 4 ≠ 3 →
      decode (.command w) = decode (.command w'))) ∧
  (∀ w w' : MuxWord, w.getLsbD 15 = true → w'.getLsbD 15 = true →
    decode (.multiplexer w) = decode (.multiplexer w'))

/-! ### Addresses and periods -/

/-- Address resolution (the spec's decisions D16, D17): single, group (ascending, each drive of the group
once), broadcast; anything else Invalid. -/
def Obligations.AddressesResolveToDrives : Prop :=
  ∀ c : Config,
    (∀ d, resolve c (.single d) = if d < c.nDrives then some [d] else none) ∧
    (ConfigValid c → ∀ g members, c.groups[g]? = some members →
      ∃ ds, resolve c (.group g) = some ds ∧ ds.Pairwise (· < ·) ∧ ∀ d, d ∈ ds ↔ d ∈ members) ∧
    (∀ g, c.groups.length ≤ g → resolve c (.group g) = none) ∧
    (∃ ds, resolve c .broadcast = some ds ∧ ds.Pairwise (· < ·) ∧ ∀ d, d ∈ ds ↔ d < c.nDrives) ∧
    (∀ aid, resolve c (.reserved aid) = none)

/-- The frequency-to-period mapping: p is accepted exactly when it is the nearest whole number of ticks to
TICK_RATE / (2 f), halves up (the spec's decision D13), and 1 ≤ p ≤ PERIOD_MAX. -/
def Obligations.PeriodIsNearestWholeTicks : Prop :=
  ∀ (c : Config) (f p : Nat),
    periodOf c f = some p ↔
      0 < f ∧ 1 ≤ p ∧ p ≤ c.periodMax ∧
      2 * f * p ≤ c.tickRate + f ∧ c.tickRate + f < 2 * f * (p + 1)

/-- Laws of the mapping the spec derives from it: within half a tick, non-increasing in f, one tick exactly
for TICK_RATE/3 < f ≤ TICK_RATE, rejected above TICK_RATE and at 0. -/
def Obligations.PeriodMappingLaws : Prop :=
  ∀ c : Config,
    (∀ f p, periodOf c f = some p → 2 * f * p ≤ c.tickRate + f ∧ c.tickRate ≤ 2 * f * p + f) ∧
    (∀ f f' p p', f ≤ f' → periodOf c f = some p → periodOf c f' = some p' → p' ≤ p) ∧
    (1 ≤ c.periodMax → ∀ f, periodOf c f = some 1 ↔ c.tickRate < 3 * f ∧ f ≤ c.tickRate) ∧
    (∀ f, c.tickRate < f → periodOf c f = none) ∧ periodOf c 0 = none

/-! ### Commands -/

/-- NOTE_ON of a running block at a valid address writes TONE of each target whose range holds the
frequency and whose period is accepted; a target that rejects keeps its record; nothing else changes
(the spec's decisions D4, D14, D17). -/
def Obligations.NoteOnRetunesAcceptedTargets : Prop :=
  ∀ (s : State) (a : Addr) (f : Nat) (ds : List Nat),
    s.halted = false → resolve s.cfg a = some ds →
    ∃ t : State, exec (.noteOn a f) s = .next t ∧ t = { s with drives := t.drives } ∧
      t.drives.length = s.drives.length ∧
      (∀ d, d ∉ ds → t.drives[d]? = s.drives[d]?) ∧
      ∀ d ∈ ds, ∀ (dc : DriveConfig) (dr : Drive), s.cfg.drives[d]? = some dc → s.drives[d]? = some dr →
        (∀ p, dc.freqMin ≤ f → f ≤ dc.freqMax → periodOf s.cfg f = some p →
          t.drives[d]? = some { dr with tone := .active p }) ∧
        ((f < dc.freqMin ∨ dc.freqMax < f ∨ periodOf s.cfg f = none) → t.drives[d]? = some dr)

/-- NOTE_OFF of a running block at a valid address silences each target and changes nothing else (the
spec's decision D4: the count is kept). -/
def Obligations.NoteOffSilencesTargets : Prop :=
  ∀ (s : State) (a : Addr) (ds : List Nat),
    s.halted = false → resolve s.cfg a = some ds →
    ∃ t : State, exec (.noteOff a) s = .next t ∧ t = { s with drives := t.drives } ∧
      t.drives.length = s.drives.length ∧
      (∀ d, d ∉ ds → t.drives[d]? = s.drives[d]?) ∧
      ∀ d ∈ ds, t.drives[d]? = (s.drives[d]?).map fun (dr : Drive) => { dr with tone := .silent }

/-- RESET of a running block at a valid address re-homes and silences each target, moves no line and no
pin, and changes nothing else (the spec's decisions D4, D26). -/
def Obligations.ResetRehomesTargets : Prop :=
  ∀ (s : State) (a : Addr) (ds : List Nat),
    s.halted = false → resolve s.cfg a = some ds →
    ∃ t : State, exec (.reset a) s = .next t ∧ t = { s with drives := t.drives } ∧
      t.drives.length = s.drives.length ∧
      (∀ d, d ∉ ds → t.drives[d]? = s.drives[d]?) ∧
      ∀ d ∈ ds, t.drives[d]? = (s.drives[d]?).map fun _ =>
        { pos := 0, dir := s.cfg.startDir, tone := .silent, cnt := 0 }

/-- An unsupported kind is no error of the control path: a running block counts it in UNSUP_COUNT, logs it in
DIAG and changes nothing else. That the count is 32 bits wide and saturates is the spec's decision D21. -/
def Obligations.UnsupportedKindCountsAndLogs : Prop :=
  ∀ (i : Instr) (kind : Nat) (s : State),
    i.unsupportedKind = some kind → s.halted = false →
    ∃ t : State, exec i s = .next t ∧ t = { s with unsupCount := t.unsupCount, diag := t.diag } ∧
      t.unsupCount.toNat = min (s.unsupCount.toNat + 1) (2 ^ 32 - 1) ∧
      t.diag = s.diag ++ [.unsupported kind]

/-- A command at an Invalid address is ignored: no state changes (the spec's decisions D17, D21). -/
def Obligations.InvalidAddressIsIgnored : Prop :=
  ∀ (s : State) (a : Addr), resolve s.cfg a = none →
    (∀ f, exec (.noteOn a f) s = .next s) ∧ exec (.noteOff a) s = .next s ∧
    exec (.reset a) s = .next s

/-- The outcome labels of the command operations (the spec's decisions D20, D32; a function beside exec,
log 13). -/
def Obligations.CommandOutcomeLabels : Prop :=
  (∀ (i : Instr) (s : State),
    ((commandOutcome i s).isSome ↔ i.context = .command) ∧
    (i.context = .command → s.halted = true → commandOutcome i s = some .halted)) ∧
  (∀ (s : State) (a : Addr) (f : Nat), s.halted = false →
    (resolve s.cfg a = none →
      commandOutcome (.noteOn a f) s = some (.outOfRange [.address a]) ∧
      commandOutcome (.noteOff a) s = some (.outOfRange [.address a]) ∧
      commandOutcome (.reset a) s = some (.outOfRange [.address a])) ∧
    ∀ ds, resolve s.cfg a = some ds →
      (commandOutcome (.noteOn a f) s = some .ok ↔ ∀ d ∈ ds, acceptedPeriod s.cfg d f ≠ none) ∧
      ((∃ d ∈ ds, acceptedPeriod s.cfg d f = none) →
        ∃ errs, commandOutcome (.noteOn a f) s = some (.outOfRange errs)) ∧
      (∀ errs, commandOutcome (.noteOn a f) s = some (.outOfRange errs) →
        ∀ e, e ∈ errs ↔ ∃ d ∈ ds, acceptedPeriod s.cfg d f = none ∧ e = .frequency d f) ∧
      commandOutcome (.noteOff a) s = some .ok ∧ commandOutcome (.reset a) s = some .ok) ∧
  (∀ (i : Instr) (kind : Nat) (s : State), i.unsupportedKind = some kind → s.halted = false →
    commandOutcome i s = some (.unsupported kind))

/-- Every command operation completes, and leaves BANK, DIRTY, the chain (SR, OUT and the pins),
the trace of pin events, HALTED and the configuration as they were: what it changes is the drive table,
and for an unsupported kind the count and the diagnostics alone (spec/20_memory.md, the two contexts). -/
def Obligations.CommandsTouchOnlyTheDriveTable : Prop :=
  ∀ (i : Instr) (s : State), i.context = .command →
    ∃ t : State, exec i s = .next t ∧
      t = { s with drives := t.drives, unsupCount := t.unsupCount, diag := t.diag } ∧
      (i.unsupportedKind = none → t.unsupCount = s.unsupCount ∧ t.diag = s.diag) ∧
      (i.unsupportedKind ≠ none → t.drives = s.drives)

/-- While HALTED, TICK and every command operation change nothing at all (the spec's decision D20). -/
def Obligations.HaltedBlockDoesNothing : Prop :=
  ∀ (i : Instr) (s : State), s.halted = true → i.context = .command ∨ i = .tick →
    exec i s = .next s

/-! ### TICK -/

/-- What one TICK with the output path available does to every drive's record, and its frame: a silent
drive is not touched, an active one counts, and when the count reaches the period it steps (the spec's
decisions D2, D7, D24). -/
def Obligations.TickAdvancesEachDrive : Prop :=
  ∀ s : State, s.Sound → s.halted = false → s.outOk = true →
    ∃ t : State, exec .tick s = .next t ∧
      t = { s with drives := t.drives, bank := t.bank, dirty := false, chain := t.chain,
                   pins := t.pins } ∧
      t.drives.length = s.drives.length ∧
      ∀ (d : Nat) (dc : DriveConfig) (dr : Drive), s.cfg.drives[d]? = some dc → s.drives[d]? = some dr →
        (dr.tone = .silent → t.drives[d]? = some dr) ∧
        (∀ p, dr.tone = .active p → dr.cnt + 1 < p →
          t.drives[d]? = some { dr with cnt := dr.cnt + 1 }) ∧
        (∀ p, dr.tone = .active p → p ≤ dr.cnt + 1 →
          ∃ dr' : Drive, t.drives[d]? = some dr' ∧ dr'.tone = .active p ∧ dr'.cnt = 0 ∧
            (dr.dir = .fwd → dr'.pos = dr.pos + 1) ∧
            (dr.dir = .rev → dr'.pos + 1 = dr.pos))

/-- Rule R154: the direction flips at a step event exactly when the position, having moved, is 0 or the
drive's maximum; without a step event it does not flip, even on a boundary; with a maximum of 1 every step
flips. -/
def Obligations.DirectionFlipsAtTheBoundary : Prop :=
  ∀ s : State, s.Sound → s.halted = false →
    ∃ t : State, exec .tick s = .next t ∧
      ∀ (d : Nat) (dc : DriveConfig) (dr : Drive), s.cfg.drives[d]? = some dc → s.drives[d]? = some dr →
        ∃ dr' : Drive, t.drives[d]? = some dr' ∧
          (∀ p, dr.tone = .active p → p ≤ dr.cnt + 1 →
            (dr'.pos = 0 ∨ dr'.pos = dc.maxPos → dr'.dir ≠ dr.dir) ∧
            (dr'.pos ≠ 0 → dr'.pos ≠ dc.maxPos → dr'.dir = dr.dir) ∧
            (dc.maxPos = 1 → dr'.dir ≠ dr.dir)) ∧
          ((dr.tone = .silent ∨ ∃ p, dr.tone = .active p ∧ dr.cnt + 1 < p) →
            dr'.dir = dr.dir ∧ dr'.pos = dr.pos)

/-- The lines after a TICK: a step event toggles its drive's step line, every direction line agrees with its
drive, and no other line changes (the spec's decisions D6, D7). -/
def Obligations.TickWritesStepAndDirectionLines : Prop :=
  ∀ s : State, s.Sound → s.halted = false →
    ∃ t : State, exec .tick s = .next t ∧ t.bank.length = s.bank.length ∧
      (∀ i, i ∉ s.cfg.lineTable → t.lineAt i = s.lineAt i) ∧
      ∀ (d : Nat) (dc : DriveConfig) (dr : Drive), s.cfg.drives[d]? = some dc → s.drives[d]? = some dr →
        (∀ p, dr.tone = .active p → p ≤ dr.cnt + 1 →
          t.lineAt dc.lineStep = !s.lineAt dc.lineStep) ∧
        ((dr.tone = .silent ∨ ∃ p, dr.tone = .active p ∧ dr.cnt + 1 < p) →
          t.lineAt dc.lineStep = s.lineAt dc.lineStep) ∧
        (∀ dr' : Drive, t.drives[d]? = some dr' → t.lineAt dc.lineDir = dirLevel s.cfg dr'.dir)

/-- TICK flushes once if any line changed, and never more than once; the flush shows every line at one latch.
That a line written from outside since the last flush counts too is the spec's decision D23
(spec/90_conflicts.md C7); the number of pin events is D10 and D11, the outputs shown D9 (log 14). -/
def Obligations.TickFlushesAtMostOnce : Prop :=
  ∀ s : State, s.Sound → s.halted = false → s.outOk = true →
    ∃ t : State, exec .tick s = .next t ∧
      ((s.dirty = true ∨ ∃ i < s.cfg.nLines, t.lineAt i ≠ s.lineAt i) →
        t.pins.count .rclkRise = s.pins.count .rclkRise + 1 ∧
        t.pins.length = s.pins.length + (s.cfg.nSeg * 192 + 2) ∧
        ∀ i < s.cfg.nLines, t.outAt i = t.lineAt i) ∧
      (s.dirty = false → (∀ i < s.cfg.nLines, t.lineAt i = s.lineAt i) →
        t.pins = s.pins ∧ t.chain = s.chain)

/-- A TICK in which no drive steps, every direction line agrees and DIRTY = 0 moves the counters of the
active drives and nothing else; with every drive silent it changes nothing (derived by the spec). -/
def Obligations.QuietTickMovesCountersOnly : Prop :=
  ∀ s : State, s.Sound → s.halted = false → s.dirty = false →
    (∀ (d : Nat) (dc : DriveConfig) (dr : Drive), s.cfg.drives[d]? = some dc → s.drives[d]? = some dr →
      (∀ p, dr.tone = .active p → dr.cnt + 1 < p) ∧
      s.lineAt dc.lineDir = dirLevel s.cfg dr.dir) →
    ∃ t : State, exec .tick s = .next t ∧ t = { s with drives := t.drives } ∧
      (∀ (d : Nat) (dr : Drive), s.drives[d]? = some dr →
        t.drives[d]? = some (if dr.tone = .silent then dr else { dr with cnt := dr.cnt + 1 })) ∧
      ((∀ dr ∈ s.drives, dr.tone = .silent) → t = s)

/-- A TICK whose FLUSH finds the output path gone: it halts exactly when there was something to flush, with
every drive silent, no pin event, DIRTY still set, and POS, DIR, CNT and BANK as the drive loop left them,
which is what the same TICK gives with the path available (the spec's decisions D19, D20). -/
def Obligations.FailingTickHaltsPrecisely : Prop :=
  ∀ s : State, s.Sound → s.halted = false → s.outOk = false →
    ∃ (t u : State), exec .tick s = .next t ∧ exec .tick { s with outOk := true } = .next u ∧
      t.bank = u.bank ∧ t.chain = s.chain ∧ t.pins = s.pins ∧ t.unsupCount = s.unsupCount ∧
      t.cfg = s.cfg ∧ t.inputs = s.inputs ∧ t.draws = s.draws ∧ t.outOk = s.outOk ∧
      t.drives.length = s.drives.length ∧
      (t.halted = true ↔ s.dirty = true ∨ ∃ i < s.cfg.nLines, t.lineAt i ≠ s.lineAt i) ∧
      (t.halted = true →
        t.dirty = true ∧ t.diag = s.diag ++ [.outputUnavailable] ∧
        ∀ d : Nat, t.drives[d]? = (u.drives[d]?).map fun (dr : Drive) => { dr with tone := .silent }) ∧
      (t.halted = false → t.dirty = false ∧ t.diag = s.diag ∧ t.drives = u.drives)

/-- After a TICK that does not end halted, DIRTY = 0, every direction line agrees with its drive, and the
outputs show the bank once a flush has completed since INIT (derived by the spec). -/
def Obligations.TickLeavesOutputsInStep : Prop :=
  ∀ s t : State, s.Sound → s.OutputsWhole → exec .tick s = .next t → t.halted = false →
    t.dirty = false ∧
    (∀ (d : Nat) (dc : DriveConfig) (dr : Drive), t.cfg.drives[d]? = some dc → t.drives[d]? = some dr →
      t.lineAt dc.lineDir = dirLevel t.cfg dr.dir) ∧
    (PinEvent.rclkRise ∈ t.pins → ∀ i < t.cfg.nLines, t.outAt i = t.lineAt i)

/-- The order in which TICK visits the drives cannot be observed (the spec's decision D24). -/
def Obligations.TickOrderIsUnobservable : Prop :=
  ∀ s : State, s.Sound → ∀ ds : List Nat, ds.Perm (List.range s.cfg.nDrives) →
    s.tickDrives ds = s.tickDrives (List.range s.cfg.nDrives)

/-- TICK treats each drive from its own record and its own two lines alone: two states that agree on them
agree on them afterwards, whatever the other drives do (derived by the spec). -/
def Obligations.TickTreatsEachDriveAlone : Prop :=
  ∀ s s' t t' : State, s.Sound → s'.Sound → s.cfg = s'.cfg →
    s.halted = false → s'.halted = false → s.outOk = true → s'.outOk = true →
    exec .tick s = .next t → exec .tick s' = .next t' →
    ∀ (d : Nat) (dc : DriveConfig), s.cfg.drives[d]? = some dc → s.drives[d]? = s'.drives[d]? →
      s.lineAt dc.lineStep = s'.lineAt dc.lineStep →
      t.drives[d]? = t'.drives[d]? ∧ t.lineAt dc.lineStep = t'.lineAt dc.lineStep ∧
      t.lineAt dc.lineDir = t'.lineAt dc.lineDir

/-- A drive that plays a constant period p from (0, FWD, count 0) steps on every p-th TICK, its position is
the triangle wave of its step count and its step line the square wave (derived by the spec). -/
def Obligations.PlayedToneIsATriangleWave : Prop :=
  ∀ (s : State) (d p n : Nat) (dc : DriveConfig),
    s.Sound → s.halted = false → s.outOk = true →
    s.cfg.drives[d]? = some dc →
    s.drives[d]? = some { pos := 0, dir := .fwd, tone := .active p, cnt := 0 } →
    ∃ t : State, ticks n s = .next t ∧ t.halted = false ∧
      t.drives[d]? = some
        { pos := trianglePos dc.maxPos (n / p), dir := triangleDir dc.maxPos (n / p),
          tone := .active p, cnt := n % p } ∧
      t.lineAt dc.lineStep = (s.lineAt dc.lineStep ^^ decide (n / p % 2 = 1))

/-- The first step comes p - CNT ticks from now, or at the very next TICK if CNT + 1 ≥ p already (the spec's
decisions D2, D4). -/
def Obligations.FirstStepComesWithinThePeriod : Prop :=
  ∀ (s : State) (d p : Nat) (dc : DriveConfig) (dr : Drive),
    s.Sound → s.halted = false → s.outOk = true →
    s.cfg.drives[d]? = some dc → s.drives[d]? = some dr → dr.tone = .active p →
    (∀ n < max 1 (p - dr.cnt), ∃ t : State, ticks n s = .next t ∧
      t.drives[d]? = some { dr with cnt := dr.cnt + n }) ∧
    ∃ (t : State) (dr' : Drive), ticks (max 1 (p - dr.cnt)) s = .next t ∧ t.drives[d]? = some dr' ∧
      dr'.cnt = 0 ∧ dr'.pos ≠ dr.pos ∧ t.lineAt dc.lineStep = !s.lineAt dc.lineStep

/-- A silent drive, whatever else plays and whether or not the output path fails, keeps its record and its
step line through any number of TICKs (the source's property S3). -/
def Obligations.SilentDriveStaysStill : Prop :=
  ∀ (s : State) (d n : Nat) (dc : DriveConfig) (dr : Drive),
    s.Sound → s.cfg.drives[d]? = some dc → s.drives[d]? = some dr → dr.tone = .silent →
    ∃ t : State, ticks n s = .next t ∧ t.drives[d]? = some dr ∧
      t.lineAt dc.lineStep = s.lineAt dc.lineStep

/-! ### Multiplexer -/

/-- Rule R181: SET_LINE writes BANK[i] and DIRTY and nothing else, also when the value is the old one;
OUT and the pins do not move. An index outside the bank returns at once (rule R182 marks that line of
R181's text as the spec's decision D22). -/
def Obligations.SetLineWritesThePendingFrame : Prop :=
  ∀ (s : State) (i : Nat) (v : Bool), s.Shaped →
    (i < s.cfg.nLines → ∃ t : State, exec (.setLine i v) s = .next t ∧
      t = { s with bank := t.bank, dirty := true } ∧ t.bank.length = s.bank.length ∧
      t.lineAt i = v ∧ (∀ j, j ≠ i → t.lineAt j = s.lineAt j) ∧
      ∀ j, t.outAt j = s.outAt j) ∧
    (s.cfg.nLines ≤ i → exec (.setLine i v) s = .next s)

/-- Rule R33: a write to any line marks the whole bank dirty, equal values included, until the next FLUSH
that completes (alone or inside TICK); INIT starts anew. -/
def Obligations.DirtyMarksTheBankUntilFlushed : Prop :=
  (∀ (s : State) (i : Nat) (v : Bool), i < s.cfg.nLines →
    ∃ t : State, exec (.setLine i v) s = .next t ∧ t.dirty = true) ∧
  (∀ s : State, s.outOk = true → ∃ t : State, exec .flush s = .next t ∧ t.dirty = false) ∧
  (∀ (i : Instr) (s t : State), s.dirty = true → exec i s = .next t →
    t.dirty = true ∨ i = .init ∨ (s.outOk = true ∧ (i = .flush ∨ i = .tick)))

/-- A FLUSH that completes: SR and OUT of every segment hold the bank's 64 lines, the clocks are idle, SER
keeps the last bit sent, DIRTY is clear, and nothing else changes (the spec's decisions D9, D10, D11; in a
halted state log 8). -/
def Obligations.FlushPresentsTheBank : Prop :=
  ∀ s : State, s.Shaped → s.outOk = true →
    ∃ t : State, exec .flush s = .next t ∧
      t = { s with chain := t.chain, pins := t.pins, dirty := false } ∧
      t.chain.length = s.chain.length ∧
      ∀ (seg : Nat) (g : Segment), t.chain[seg]? = some g →
        g.srclk = false ∧ g.rclk = false ∧ g.ser = s.lineAt (seg * 64) ∧
        ∀ k < 64, g.sr.getLsbD k = s.lineAt (seg * 64 + k) ∧
          g.out.getLsbD k = s.lineAt (seg * 64 + k)

/-- The pin events of a FLUSH that completes: for each segment in turn line 63 first, each bit as data, clock
up, clock down; then one latch pulse for all; N_SEG × 192 + 2 events (the spec's decisions D9, D10, D11; in a
halted state log 8). -/
def Obligations.FlushPinSequence : Prop :=
  ∀ s : State, s.Shaped → s.outOk = true →
    ∃ t : State, exec .flush s = .next t ∧
      t.pins = s.pins ++
        ((List.range s.cfg.nSeg).flatMap fun seg =>
          (List.range 64).flatMap fun n =>
            [.ser seg (s.lineAt (seg * 64 + (63 - n))), .srclkRise seg, .srclkFall seg]) ++
        [.rclkRise, .rclkFall] ∧
      t.pins.length = s.pins.length + (s.cfg.nSeg * 192 + 2)

/-- A FLUSH that finds OUT_OK = 0: HALTED set, every TONE Silent, one DIAG event, and no pin event, BANK,
DIRTY, SR, OUT, POS, DIR and CNT as they were (the spec's decisions D19, D20). -/
def Obligations.OutputFailureHaltsTheBlock : Prop :=
  ∀ s : State, s.outOk = false →
    ∃ t : State, exec .flush s = .next t ∧
      t = { s with halted := true, drives := t.drives, diag := s.diag ++ [.outputUnavailable] } ∧
      t.drives.length = s.drives.length ∧
      ∀ d : Nat, t.drives[d]? = (s.drives[d]?).map fun (dr : Drive) => { dr with tone := .silent }

/-- SHIFT_BIT moves every stage of its segment one place on and takes the data bit into stage 0; OUT, the
other segments and everything else stay; three pin events (the spec's decisions D9, D10). -/
def Obligations.ShiftBitMovesTheShiftStage : Prop :=
  ∀ (s : State) (seg : Nat) (v : Bool), s.Shaped → seg < s.cfg.nSeg →
    ∃ (t : State) (g g' : Segment), exec (.shiftBit seg v) s = .next t ∧ s.chain[seg]? = some g ∧
      t.chain[seg]? = some g' ∧
      t = { s with chain := t.chain,
                   pins := s.pins ++ [.ser seg v, .srclkRise seg, .srclkFall seg] } ∧
      (∀ e, e ≠ seg → t.chain[e]? = s.chain[e]?) ∧
      g' = { g with ser := v, srclk := false, sr := g'.sr } ∧
      g'.sr.getLsbD 0 = v ∧ ∀ k, 1 ≤ k → k < 64 → g'.sr.getLsbD k = g.sr.getLsbD (k - 1)

/-- The model's choice (log 9): SHIFT_BIT on a segment the chain does not have stops by name. -/
def Obligations.ShiftBitOutsideTheChainStops : Prop :=
  ∀ (s : State) (seg : Nat) (v : Bool), s.cfg.nSeg ≤ seg →
    exec (.shiftBit seg v) s = .fault .noSuchSegment

/-- LATCH replaces OUT of every segment by SR at once, leaves SR, and pulses RCLK; nothing else changes (the
spec's decisions D10, D11). -/
def Obligations.LatchPresentsTheShiftStage : Prop :=
  ∀ s : State, ∃ t : State, exec .latch s = .next t ∧
    t = { s with chain := t.chain, pins := s.pins ++ [.rclkRise, .rclkFall] } ∧
    t.chain.length = s.chain.length ∧
    ∀ (seg : Nat) (g : Segment), s.chain[seg]? = some g →
      t.chain[seg]? = some { g with rclk := false, out := g.sr }

/-- The outputs change only all together and only to the whole bank: after any step of a sound block every
output is as before, or every output shows its line, or the step was an INIT (derived by the spec). -/
def Obligations.OutputsChangeOnlyAllTogether : Prop :=
  ∀ s t : State, s.Sound → step s = .next t →
    (∀ i < s.cfg.nLines, t.outAt i = s.outAt i) ∨
    (∀ i < s.cfg.nLines, t.outAt i = t.lineAt i) ∨
    ∃ b rest, s.inputs = .word (.reset b) :: rest

/-- Rule R250: the block never latches before all bits are shifted. Whatever pin events a step adds hold no
latch pulse, or are one whole frame of 64 clock pulses on every segment and then the latch pulse. -/
def Obligations.LatchFollowsTheWholeFrame : Prop :=
  ∀ s t : State, step s = .next t →
    (∃ b rest, s.inputs = .word (.reset b) :: rest) ∨
    ∃ added, t.pins = s.pins ++ added ∧
      (PinEvent.rclkRise ∈ added →
        ∃ bits, added = bits ++ [.rclkRise, .rclkFall] ∧ PinEvent.rclkRise ∉ bits ∧
          ∀ seg < s.cfg.nSeg, bits.count (.srclkRise seg) = 64)

/-! ### INIT and the whole machine -/

/-- INIT of a valid configuration sets every piece of state whose value the spec gives; SR and OUT are
unspecified and nothing is said of them (the spec's decision D18; OUT_OK and what has arrived are the
environment's, logs 4 and 5). -/
def Obligations.InitSetsTheInitialState : Prop :=
  ∀ s : State, ConfigValid s.cfg →
    ∃ t : State, exec .init s = .next t ∧ t.cfg = s.cfg ∧ t.outOk = s.outOk ∧ t.inputs = s.inputs ∧
      t.drives.length = s.cfg.nDrives ∧
      (∀ dr ∈ t.drives, dr = { pos := 0, dir := .fwd, tone := .silent, cnt := 0 }) ∧
      t.bank = s.cfg.bankInit ∧ t.dirty = s.cfg.initDirty ∧ t.halted = false ∧
      t.unsupCount = 0 ∧ t.pins = [] ∧ t.diag = [] ∧ t.chain.length = s.cfg.nSeg ∧
      ∀ g ∈ t.chain, g.ser = false ∧ g.srclk = false ∧ g.rclk = false

/-- INIT refuses a configuration that breaks a constraint (the spec's decision D5). -/
def Obligations.InitRefusesABadConfiguration : Prop :=
  ∀ s : State, ¬ ConfigValid s.cfg → exec .init s = .refused .badConfiguration

/-- Rule R44: no operation changes the configuration, the length of the bank or the number of drives (nor
the chain's length), alone or as a step. -/
def Obligations.ConfigurationNeverChanges : Prop :=
  (∀ (i : Instr) (s t : State), exec i s = .next t →
    t.cfg = s.cfg ∧ (s.Shaped → t.Shaped)) ∧
  (∀ s t : State, step s = .next t → t.cfg = s.cfg ∧ (s.Shaped → t.Shaped))

/-- Each flag changes only as the spec's table of flags says: HALTED is set by a FLUSH (alone or in TICK)
that finds OUT_OK = 0 and cleared by INIT; DIRTY is set by SET_LINE (alone or in TICK) and cleared by a
FLUSH that completes; SILENT is cleared by an accepted NOTE_ON and set by NOTE_OFF, RESET, INIT and the
halt. -/
def Obligations.FlagsChangeOnlyByTheirRules : Prop :=
  ∀ (i : Instr) (s t : State), exec i s = .next t →
    (s.halted = false → t.halted = true → (i = .flush ∨ i = .tick) ∧ s.outOk = false) ∧
    (s.halted = true → t.halted = false → i = .init) ∧
    (s.dirty = false → t.dirty = true →
      (∃ k v, i = .setLine k v ∧ k < s.cfg.nLines) ∨ (i = .tick ∧ s.outOk = false) ∨
      (i = .init ∧ s.cfg.initDirty = true)) ∧
    (s.dirty = true → t.dirty = false →
      ((i = .flush ∨ i = .tick) ∧ s.outOk = true) ∨ (i = .init ∧ s.cfg.initDirty = false)) ∧
    ∀ (d : Nat) (dr dr' : Drive), s.drives[d]? = some dr → t.drives[d]? = some dr' →
      (dr.silent = true → dr'.silent = false →
        ∃ a f p, i = .noteOn a f ∧ acceptedPeriod s.cfg d f = some p) ∧
      (dr.silent = false → dr'.silent = true →
        (∃ a, i = .noteOff a ∨ i = .reset a) ∨ i = .init ∨
        ((i = .flush ∨ i = .tick) ∧ s.outOk = false ∧ t.halted = true))

/-- Which operation may write which part of the drive table and the bank (derived by the spec): NOTE_ON
and NOTE_OFF write TONE alone; UNSUPPORTED, SET_LINE, SHIFT_BIT and LATCH write no record; FLUSH and TICK
write TONE on output failure only; BANK is written by SET_LINE, TICK and INIT only. -/
def Obligations.EachOperationWritesOnlyItsOwnFields : Prop :=
  ∀ (i : Instr) (s t : State), exec i s = .next t →
    ((∃ a f, i = .noteOn a f) ∨ (∃ a, i = .noteOff a) → ∀ (d : Nat) (dr dr' : Drive),
      s.drives[d]? = some dr → t.drives[d]? = some dr' → dr' = { dr with tone := dr'.tone }) ∧
    (i.unsupportedKind ≠ none ∨ (∃ k v, i = .setLine k v) ∨ (∃ k v, i = .shiftBit k v) ∨
      i = .latch → t.drives = s.drives) ∧
    (i = .flush → s.outOk = true → t.drives = s.drives) ∧
    (i = .tick → s.outOk = true → t.drives.map (·.tone) = s.drives.map (·.tone)) ∧
    (t.bank ≠ s.bank → (∃ k v, i = .setLine k v) ∨ i = .tick ∨ i = .init)

/-- Rule R230: the diagnostics, UNSUP_COUNT and DIAG, never affect control-path behaviour: without them every
operation ends the same way and gives the same state but for them. -/
def Obligations.DiagnosticsNeverAffectControl : Prop :=
  ∀ (i : Instr) (s : State),
    (∀ t, exec i s = .next t → ∃ t', exec i s.withoutDiagnostics = .next t' ∧
      t'.withoutDiagnostics = t.withoutDiagnostics) ∧
    (∀ r, exec i s = .fault r → exec i s.withoutDiagnostics = .fault r) ∧
    (∀ r, exec i s = .refused r → exec i s.withoutDiagnostics = .refused r)

/-- When the next input is a word that decodes, a step is that operation on the state without the input
(the list of inputs is the model's, log 5). -/
def Obligations.StepRunsTheDecodedOperation : Prop :=
  (∀ (s : State) (w : PortWord) (rest : List Input) (i : Instr),
    s.inputs = .word w :: rest → decode w = .ok i → step s = exec i { s with inputs := rest }) ∧
  (∀ (s : State) (nbits w : Nat) (i : Instr), decodeTableWord nbits w = some i →
    step (s.withFetchWord nbits w) = exec i s)

/-- A frame the decoder dropped produces no command operation: the block is as before. That the decoder may log
any of its errors in DIAG is an input of the model (log 15), as is the list of what has arrived (log 5). -/
def Obligations.DroppedFramesLeaveTheBlockAsItIs : Prop :=
  ∀ (s : State) (e : DecodeError) (logged : Bool) (rest : List Input),
    s.inputs = .decodeError e logged :: rest →
    ∃ t : State, step s = .next t ∧ t = { s with inputs := rest, diag := t.diag } ∧
      t.diag = s.diag ++ (if logged then [.decodeError e] else [])

/-- The other steps (log 4, log 5): a level of OUT_OK is taken over, a strobe that is not asserted performs
nothing, and with nothing arrived the block stays as it is. -/
def Obligations.StepsWithoutAnOperation : Prop :=
  (∀ (s : State) (level : Bool) (rest : List Input), s.inputs = .outOk level :: rest →
    step s = .next { s with inputs := rest, outOk := level }) ∧
  (∀ (s : State) (rest : List Input),
    s.inputs = .word (.timer 0) :: rest ∨ s.inputs = .word (.reset 0) :: rest →
    step s = .next { s with inputs := rest }) ∧
  (∀ s : State, s.inputs = [] → step s = .next s)

/-- The state after INIT of any valid configuration, whatever the chain holds, is sound and its outputs are
whole, and so is State.reset (whose configuration is the model's choice, log 2). -/
def Obligations.ResetStateIsSound : Prop :=
  (∀ (c : Config) (draw : Nat) (outOk : Bool) (inputs : List Input), ConfigValid c →
    (State.afterInit c draw outOk inputs).Sound ∧
    (State.afterInit c draw outOk inputs).OutputsWhole) ∧
  State.reset.Sound

/-- Every step keeps a state sound: the invariants I1 to I4 of the drive table, the shape of every table, idle
clocks, and silence while halted (derived by the spec). -/
def Obligations.StepKeepsTheBlockSound : Prop :=
  ∀ s t : State, s.Sound → step s = .next t → t.Sound

/-- Every step keeps the outputs whole: once a FLUSH has completed since INIT, no shift stage differs from
the outputs, and with a clean bank the outputs show the bank (derived by the spec). -/
def Obligations.StepKeepsOutputsWhole : Prop :=
  ∀ s t : State, s.Sound → s.OutputsWhole → step s = .next t → t.OutputsWhole
end

