-- ==== Sys2Proof/Laws/Decode.lean ====
section
/-! SUPPORT. The fields of an assembled word are the values it was assembled from, and every field is
within its width. -/

namespace Sys2Proof

theorem field_lt {n : Nat} (w : BitVec n) (hi lo : Nat) : field w hi lo < 2 ^ (hi + 1 - lo) :=
  Nat.mod_lt _ (Nat.two_pow_pos _)

section commandWord
variable {kind amode aid freq : Nat} (hk : kind < 16) (hm : amode < 4) (ha : aid < 1024)
  (hf : freq < 65536)
include hk hm ha hf

theorem commandWord_toNat :
    (commandWord kind amode aid freq).toNat
      = kind * 2 ^ 28 + amode * 2 ^ 26 + aid * 2 ^ 16 + freq := by
  simp only [commandWord, BitVec.toNat_ofNat]
  omega

theorem commandWord_kind : field (commandWord kind amode aid freq) 31 28 = kind := by
  rw [field, commandWord_toNat hk hm ha hf]; omega

theorem commandWord_amode : field (commandWord kind amode aid freq) 27 26 = amode := by
  rw [field, commandWord_toNat hk hm ha hf]; omega

theorem commandWord_aid : field (commandWord kind amode aid freq) 25 16 = aid := by
  rw [field, commandWord_toNat hk hm ha hf]; omega

theorem commandWord_freq : field (commandWord kind amode aid freq) 15 0 = freq := by
  rw [field, commandWord_toNat hk hm ha hf]; omega

end commandWord

section muxWord
variable {mop state index : Nat} (hm : mop < 2) (hs : state < 2) (hi : index < 16384)
include hm hs hi

theorem muxWord_toNat : (muxWord mop state index).toNat = mop * 2 ^ 15 + state * 2 ^ 14 + index := by
  simp only [muxWord, BitVec.toNat_ofNat]
  omega

theorem muxWord_mop : field (muxWord mop state index) 15 15 = mop := by
  rw [field, muxWord_toNat hm hs hi]; omega

theorem muxWord_state : field (muxWord mop state index) 14 14 = state := by
  rw [field, muxWord_toNat hm hs hi]; omega

theorem muxWord_index : field (muxWord mop state index) 13 0 = index := by
  rw [field, muxWord_toNat hm hs hi]; omega

end muxWord

/-- An address is read back from its own fields. -/
theorem decodeAddr_fields (a : Addr) : decodeAddr a.amode a.aid = a := by
  cases a <;> rfl

theorem Addr.amode_lt (a : Addr) : a.amode < 4 := by
  cases a <;> simp [Addr.amode]

theorem Addr.aid_lt {a : Addr} (h : a.wf = true) : a.aid < 1024 := by
  cases a <;> simp_all [Addr.wf, Addr.aid]

/-- A decoded address fits its field. -/
theorem decodeAddr_wf (amode : Nat) {aid : Nat} (h : aid < 1024) : (decodeAddr amode aid).wf = true := by
  unfold decodeAddr
  split <;> simp [Addr.wf, h]

/-- A kind other than 1, 2 and 3 is the operand of the operation it decodes to (rule R102). -/
theorem unsupportedOfKind_kind {kind : Nat} (h : kind < 16) (h1 : kind ≠ 1) (h2 : kind ≠ 2)
    (h3 : kind ≠ 3) : (unsupportedOfKind kind).unsupportedKind = some kind := by
  interval_cases kind <;> first | rfl | contradiction

end Sys2Proof
end

