-- ==== Sys2Proof/Laws/State.lean ====
section
/-! SUPPORT. One lemma per field per update of State, true by rfl, so that no later proof unfolds a record
update. -/

namespace Sys2Proof.Machine

/-! `markDirty` -/

@[simp] theorem State.markDirty_cfg (s : State) :
    (s.markDirty).cfg = s.cfg := rfl
@[simp] theorem State.markDirty_drives (s : State) :
    (s.markDirty).drives = s.drives := rfl
@[simp] theorem State.markDirty_bank (s : State) :
    (s.markDirty).bank = s.bank := rfl
@[simp] theorem State.markDirty_dirty (s : State) :
    (s.markDirty).dirty = true := rfl
@[simp] theorem State.markDirty_halted (s : State) :
    (s.markDirty).halted = s.halted := rfl
@[simp] theorem State.markDirty_unsupCount (s : State) :
    (s.markDirty).unsupCount = s.unsupCount := rfl
@[simp] theorem State.markDirty_chain (s : State) :
    (s.markDirty).chain = s.chain := rfl
@[simp] theorem State.markDirty_pins (s : State) :
    (s.markDirty).pins = s.pins := rfl
@[simp] theorem State.markDirty_diag (s : State) :
    (s.markDirty).diag = s.diag := rfl
@[simp] theorem State.markDirty_outOk (s : State) :
    (s.markDirty).outOk = s.outOk := rfl
@[simp] theorem State.markDirty_inputs (s : State) :
    (s.markDirty).inputs = s.inputs := rfl
@[simp] theorem State.markDirty_draws (s : State) :
    (s.markDirty).draws = s.draws := rfl

/-! `clearDirty` -/

@[simp] theorem State.clearDirty_cfg (s : State) :
    (s.clearDirty).cfg = s.cfg := rfl
@[simp] theorem State.clearDirty_drives (s : State) :
    (s.clearDirty).drives = s.drives := rfl
@[simp] theorem State.clearDirty_bank (s : State) :
    (s.clearDirty).bank = s.bank := rfl
@[simp] theorem State.clearDirty_dirty (s : State) :
    (s.clearDirty).dirty = false := rfl
@[simp] theorem State.clearDirty_halted (s : State) :
    (s.clearDirty).halted = s.halted := rfl
@[simp] theorem State.clearDirty_unsupCount (s : State) :
    (s.clearDirty).unsupCount = s.unsupCount := rfl
@[simp] theorem State.clearDirty_chain (s : State) :
    (s.clearDirty).chain = s.chain := rfl
@[simp] theorem State.clearDirty_pins (s : State) :
    (s.clearDirty).pins = s.pins := rfl
@[simp] theorem State.clearDirty_diag (s : State) :
    (s.clearDirty).diag = s.diag := rfl
@[simp] theorem State.clearDirty_outOk (s : State) :
    (s.clearDirty).outOk = s.outOk := rfl
@[simp] theorem State.clearDirty_inputs (s : State) :
    (s.clearDirty).inputs = s.inputs := rfl
@[simp] theorem State.clearDirty_draws (s : State) :
    (s.clearDirty).draws = s.draws := rfl

/-! `setHalted` -/

@[simp] theorem State.setHalted_cfg (s : State) :
    (s.setHalted).cfg = s.cfg := rfl
@[simp] theorem State.setHalted_drives (s : State) :
    (s.setHalted).drives = s.drives := rfl
@[simp] theorem State.setHalted_bank (s : State) :
    (s.setHalted).bank = s.bank := rfl
@[simp] theorem State.setHalted_dirty (s : State) :
    (s.setHalted).dirty = s.dirty := rfl
@[simp] theorem State.setHalted_halted (s : State) :
    (s.setHalted).halted = true := rfl
@[simp] theorem State.setHalted_unsupCount (s : State) :
    (s.setHalted).unsupCount = s.unsupCount := rfl
@[simp] theorem State.setHalted_chain (s : State) :
    (s.setHalted).chain = s.chain := rfl
@[simp] theorem State.setHalted_pins (s : State) :
    (s.setHalted).pins = s.pins := rfl
@[simp] theorem State.setHalted_diag (s : State) :
    (s.setHalted).diag = s.diag := rfl
@[simp] theorem State.setHalted_outOk (s : State) :
    (s.setHalted).outOk = s.outOk := rfl
@[simp] theorem State.setHalted_inputs (s : State) :
    (s.setHalted).inputs = s.inputs := rfl
@[simp] theorem State.setHalted_draws (s : State) :
    (s.setHalted).draws = s.draws := rfl

/-! `setDrive` -/

@[simp] theorem State.setDrive_cfg (s : State) (d : Nat) (dr : Drive) :
    (s.setDrive d dr).cfg = s.cfg := rfl
@[simp] theorem State.setDrive_drives (s : State) (d : Nat) (dr : Drive) :
    (s.setDrive d dr).drives = s.drives.set d dr := rfl
@[simp] theorem State.setDrive_bank (s : State) (d : Nat) (dr : Drive) :
    (s.setDrive d dr).bank = s.bank := rfl
@[simp] theorem State.setDrive_dirty (s : State) (d : Nat) (dr : Drive) :
    (s.setDrive d dr).dirty = s.dirty := rfl
@[simp] theorem State.setDrive_halted (s : State) (d : Nat) (dr : Drive) :
    (s.setDrive d dr).halted = s.halted := rfl
@[simp] theorem State.setDrive_unsupCount (s : State) (d : Nat) (dr : Drive) :
    (s.setDrive d dr).unsupCount = s.unsupCount := rfl
@[simp] theorem State.setDrive_chain (s : State) (d : Nat) (dr : Drive) :
    (s.setDrive d dr).chain = s.chain := rfl
@[simp] theorem State.setDrive_pins (s : State) (d : Nat) (dr : Drive) :
    (s.setDrive d dr).pins = s.pins := rfl
@[simp] theorem State.setDrive_diag (s : State) (d : Nat) (dr : Drive) :
    (s.setDrive d dr).diag = s.diag := rfl
@[simp] theorem State.setDrive_outOk (s : State) (d : Nat) (dr : Drive) :
    (s.setDrive d dr).outOk = s.outOk := rfl
@[simp] theorem State.setDrive_inputs (s : State) (d : Nat) (dr : Drive) :
    (s.setDrive d dr).inputs = s.inputs := rfl
@[simp] theorem State.setDrive_draws (s : State) (d : Nat) (dr : Drive) :
    (s.setDrive d dr).draws = s.draws := rfl

/-! `updateDrives` -/

@[simp] theorem State.updateDrives_cfg (s : State) (ds : List Nat) (f : Nat → Drive → Drive) :
    (s.updateDrives ds f).cfg = s.cfg := rfl
@[simp] theorem State.updateDrives_drives (s : State) (ds : List Nat) (f : Nat → Drive → Drive) :
    (s.updateDrives ds f).drives = s.drives.mapIdx fun d dr => if ds.contains d then f d dr else dr := rfl
@[simp] theorem State.updateDrives_bank (s : State) (ds : List Nat) (f : Nat → Drive → Drive) :
    (s.updateDrives ds f).bank = s.bank := rfl
@[simp] theorem State.updateDrives_dirty (s : State) (ds : List Nat) (f : Nat → Drive → Drive) :
    (s.updateDrives ds f).dirty = s.dirty := rfl
@[simp] theorem State.updateDrives_halted (s : State) (ds : List Nat) (f : Nat → Drive → Drive) :
    (s.updateDrives ds f).halted = s.halted := rfl
@[simp] theorem State.updateDrives_unsupCount (s : State) (ds : List Nat) (f : Nat → Drive → Drive) :
    (s.updateDrives ds f).unsupCount = s.unsupCount := rfl
@[simp] theorem State.updateDrives_chain (s : State) (ds : List Nat) (f : Nat → Drive → Drive) :
    (s.updateDrives ds f).chain = s.chain := rfl
@[simp] theorem State.updateDrives_pins (s : State) (ds : List Nat) (f : Nat → Drive → Drive) :
    (s.updateDrives ds f).pins = s.pins := rfl
@[simp] theorem State.updateDrives_diag (s : State) (ds : List Nat) (f : Nat → Drive → Drive) :
    (s.updateDrives ds f).diag = s.diag := rfl
@[simp] theorem State.updateDrives_outOk (s : State) (ds : List Nat) (f : Nat → Drive → Drive) :
    (s.updateDrives ds f).outOk = s.outOk := rfl
@[simp] theorem State.updateDrives_inputs (s : State) (ds : List Nat) (f : Nat → Drive → Drive) :
    (s.updateDrives ds f).inputs = s.inputs := rfl
@[simp] theorem State.updateDrives_draws (s : State) (ds : List Nat) (f : Nat → Drive → Drive) :
    (s.updateDrives ds f).draws = s.draws := rfl

/-! `emitDiag` -/

@[simp] theorem State.emitDiag_cfg (s : State) (e : DiagEvent) :
    (s.emitDiag e).cfg = s.cfg := rfl
@[simp] theorem State.emitDiag_drives (s : State) (e : DiagEvent) :
    (s.emitDiag e).drives = s.drives := rfl
@[simp] theorem State.emitDiag_bank (s : State) (e : DiagEvent) :
    (s.emitDiag e).bank = s.bank := rfl
@[simp] theorem State.emitDiag_dirty (s : State) (e : DiagEvent) :
    (s.emitDiag e).dirty = s.dirty := rfl
@[simp] theorem State.emitDiag_halted (s : State) (e : DiagEvent) :
    (s.emitDiag e).halted = s.halted := rfl
@[simp] theorem State.emitDiag_unsupCount (s : State) (e : DiagEvent) :
    (s.emitDiag e).unsupCount = s.unsupCount := rfl
@[simp] theorem State.emitDiag_chain (s : State) (e : DiagEvent) :
    (s.emitDiag e).chain = s.chain := rfl
@[simp] theorem State.emitDiag_pins (s : State) (e : DiagEvent) :
    (s.emitDiag e).pins = s.pins := rfl
@[simp] theorem State.emitDiag_diag (s : State) (e : DiagEvent) :
    (s.emitDiag e).diag = s.diag ++ [e] := rfl
@[simp] theorem State.emitDiag_outOk (s : State) (e : DiagEvent) :
    (s.emitDiag e).outOk = s.outOk := rfl
@[simp] theorem State.emitDiag_inputs (s : State) (e : DiagEvent) :
    (s.emitDiag e).inputs = s.inputs := rfl
@[simp] theorem State.emitDiag_draws (s : State) (e : DiagEvent) :
    (s.emitDiag e).draws = s.draws := rfl

/-! `emitPin` -/

@[simp] theorem State.emitPin_cfg (s : State) (e : PinEvent) :
    (s.emitPin e).cfg = s.cfg := rfl
@[simp] theorem State.emitPin_drives (s : State) (e : PinEvent) :
    (s.emitPin e).drives = s.drives := rfl
@[simp] theorem State.emitPin_bank (s : State) (e : PinEvent) :
    (s.emitPin e).bank = s.bank := rfl
@[simp] theorem State.emitPin_dirty (s : State) (e : PinEvent) :
    (s.emitPin e).dirty = s.dirty := rfl
@[simp] theorem State.emitPin_halted (s : State) (e : PinEvent) :
    (s.emitPin e).halted = s.halted := rfl
@[simp] theorem State.emitPin_unsupCount (s : State) (e : PinEvent) :
    (s.emitPin e).unsupCount = s.unsupCount := rfl
@[simp] theorem State.emitPin_chain (s : State) (e : PinEvent) :
    (s.emitPin e).chain = s.chain := rfl
@[simp] theorem State.emitPin_pins (s : State) (e : PinEvent) :
    (s.emitPin e).pins = s.pins ++ [e] := rfl
@[simp] theorem State.emitPin_diag (s : State) (e : PinEvent) :
    (s.emitPin e).diag = s.diag := rfl
@[simp] theorem State.emitPin_outOk (s : State) (e : PinEvent) :
    (s.emitPin e).outOk = s.outOk := rfl
@[simp] theorem State.emitPin_inputs (s : State) (e : PinEvent) :
    (s.emitPin e).inputs = s.inputs := rfl
@[simp] theorem State.emitPin_draws (s : State) (e : PinEvent) :
    (s.emitPin e).draws = s.draws := rfl

/-! `modifySegment` -/

@[simp] theorem State.modifySegment_cfg (s : State) (seg : Nat) (f : Segment → Segment) :
    (s.modifySegment seg f).cfg = s.cfg := rfl
@[simp] theorem State.modifySegment_drives (s : State) (seg : Nat) (f : Segment → Segment) :
    (s.modifySegment seg f).drives = s.drives := rfl
@[simp] theorem State.modifySegment_bank (s : State) (seg : Nat) (f : Segment → Segment) :
    (s.modifySegment seg f).bank = s.bank := rfl
@[simp] theorem State.modifySegment_dirty (s : State) (seg : Nat) (f : Segment → Segment) :
    (s.modifySegment seg f).dirty = s.dirty := rfl
@[simp] theorem State.modifySegment_halted (s : State) (seg : Nat) (f : Segment → Segment) :
    (s.modifySegment seg f).halted = s.halted := rfl
@[simp] theorem State.modifySegment_unsupCount (s : State) (seg : Nat) (f : Segment → Segment) :
    (s.modifySegment seg f).unsupCount = s.unsupCount := rfl
@[simp] theorem State.modifySegment_chain (s : State) (seg : Nat) (f : Segment → Segment) :
    (s.modifySegment seg f).chain = s.chain.modify seg f := rfl
@[simp] theorem State.modifySegment_pins (s : State) (seg : Nat) (f : Segment → Segment) :
    (s.modifySegment seg f).pins = s.pins := rfl
@[simp] theorem State.modifySegment_diag (s : State) (seg : Nat) (f : Segment → Segment) :
    (s.modifySegment seg f).diag = s.diag := rfl
@[simp] theorem State.modifySegment_outOk (s : State) (seg : Nat) (f : Segment → Segment) :
    (s.modifySegment seg f).outOk = s.outOk := rfl
@[simp] theorem State.modifySegment_inputs (s : State) (seg : Nat) (f : Segment → Segment) :
    (s.modifySegment seg f).inputs = s.inputs := rfl
@[simp] theorem State.modifySegment_draws (s : State) (seg : Nat) (f : Segment → Segment) :
    (s.modifySegment seg f).draws = s.draws := rfl

/-! `withInputs` -/

@[simp] theorem State.withInputs_cfg (s : State) (l : List Input) :
    (s.withInputs l).cfg = s.cfg := rfl
@[simp] theorem State.withInputs_drives (s : State) (l : List Input) :
    (s.withInputs l).drives = s.drives := rfl
@[simp] theorem State.withInputs_bank (s : State) (l : List Input) :
    (s.withInputs l).bank = s.bank := rfl
@[simp] theorem State.withInputs_dirty (s : State) (l : List Input) :
    (s.withInputs l).dirty = s.dirty := rfl
@[simp] theorem State.withInputs_halted (s : State) (l : List Input) :
    (s.withInputs l).halted = s.halted := rfl
@[simp] theorem State.withInputs_unsupCount (s : State) (l : List Input) :
    (s.withInputs l).unsupCount = s.unsupCount := rfl
@[simp] theorem State.withInputs_chain (s : State) (l : List Input) :
    (s.withInputs l).chain = s.chain := rfl
@[simp] theorem State.withInputs_pins (s : State) (l : List Input) :
    (s.withInputs l).pins = s.pins := rfl
@[simp] theorem State.withInputs_diag (s : State) (l : List Input) :
    (s.withInputs l).diag = s.diag := rfl
@[simp] theorem State.withInputs_outOk (s : State) (l : List Input) :
    (s.withInputs l).outOk = s.outOk := rfl
@[simp] theorem State.withInputs_inputs (s : State) (l : List Input) :
    (s.withInputs l).inputs = l := rfl
@[simp] theorem State.withInputs_draws (s : State) (l : List Input) :
    (s.withInputs l).draws = s.draws := rfl

/-! `setLine` writes `bank` and `dirty` only -/

@[simp] theorem State.setLine_cfg (s : State) (i : Nat) (v : Bool) :
    (s.setLine i v).cfg = s.cfg := by
  unfold State.setLine; split <;> rfl
@[simp] theorem State.setLine_drives (s : State) (i : Nat) (v : Bool) :
    (s.setLine i v).drives = s.drives := by
  unfold State.setLine; split <;> rfl
@[simp] theorem State.setLine_halted (s : State) (i : Nat) (v : Bool) :
    (s.setLine i v).halted = s.halted := by
  unfold State.setLine; split <;> rfl
@[simp] theorem State.setLine_unsupCount (s : State) (i : Nat) (v : Bool) :
    (s.setLine i v).unsupCount = s.unsupCount := by
  unfold State.setLine; split <;> rfl
@[simp] theorem State.setLine_chain (s : State) (i : Nat) (v : Bool) :
    (s.setLine i v).chain = s.chain := by
  unfold State.setLine; split <;> rfl
@[simp] theorem State.setLine_pins (s : State) (i : Nat) (v : Bool) :
    (s.setLine i v).pins = s.pins := by
  unfold State.setLine; split <;> rfl
@[simp] theorem State.setLine_diag (s : State) (i : Nat) (v : Bool) :
    (s.setLine i v).diag = s.diag := by
  unfold State.setLine; split <;> rfl
@[simp] theorem State.setLine_outOk (s : State) (i : Nat) (v : Bool) :
    (s.setLine i v).outOk = s.outOk := by
  unfold State.setLine; split <;> rfl
@[simp] theorem State.setLine_inputs (s : State) (i : Nat) (v : Bool) :
    (s.setLine i v).inputs = s.inputs := by
  unfold State.setLine; split <;> rfl
@[simp] theorem State.setLine_draws (s : State) (i : Nat) (v : Bool) :
    (s.setLine i v).draws = s.draws := by
  unfold State.setLine; split <;> rfl

end Sys2Proof.Machine
end

