-- ==== Sys2Proof/Laws/Ops.lean ====
section
/-! SUPPORT. What each shared operation over the bank, the drive table and the chain can do, said once. -/

namespace Sys2Proof.Machine

/-! ### The line bank -/

theorem State.setLine_of_lt {s : State} {i : Nat} {v : Bool} (h : i < s.cfg.nLines) :
    s.setLine i v = { s with bank := s.bank.set i v, dirty := true } := by
  simp [State.setLine, h, State.markDirty]

theorem State.setLine_of_ge {s : State} {i : Nat} {v : Bool} (h : s.cfg.nLines ≤ i) :
    s.setLine i v = s := by
  simp [State.setLine, Nat.not_lt.2 h]

@[simp] theorem State.setLine_bank_length (s : State) (i : Nat) (v : Bool) :
    (s.setLine i v).bank.length = s.bank.length := by
  unfold State.setLine; split <;> simp

theorem State.setLine_dirty (s : State) (i : Nat) (v : Bool) :
    (s.setLine i v).dirty = (decide (i < s.cfg.nLines) || s.dirty) := by
  unfold State.setLine; split <;> simp [*]

/-- Read after write: the written line reads the value written, every other line as before. -/
theorem State.setLine_lineAt {s : State} (hb : s.bank.length = s.cfg.nLines) {i : Nat} (v : Bool)
    (hi : i < s.cfg.nLines) (j : Nat) :
    (s.setLine i v).lineAt j = if j = i then v else s.lineAt j := by
  rw [State.setLine_of_lt hi]
  by_cases h : j = i
  · subst h; simp [State.lineAt, hb, hi]
  · simp [State.lineAt, List.getElem?_set_ne (Ne.symm h), h]

theorem State.setLine_lineAt_ne {s : State} {i j : Nat} (v : Bool) (h : j ≠ i) :
    (s.setLine i v).lineAt j = s.lineAt j := by
  unfold State.setLine State.lineAt
  split
  · simp [List.getElem?_set_ne (Ne.symm h)]
  · rfl

/-- Lines are read from the bank alone. -/
theorem State.lineAt_congr {s t : State} (h : t.bank = s.bank) (i : Nat) : t.lineAt i = s.lineAt i := by
  rw [State.lineAt, State.lineAt, h]

/-- Outputs are read from the chain alone. -/
theorem State.outAt_congr {s t : State} (h : t.chain = s.chain) (i : Nat) : t.outAt i = s.outAt i := by
  rw [State.outAt, State.outAt, h]

@[simp] theorem State.setLine_outAt (s : State) (i : Nat) (v : Bool) (j : Nat) :
    (s.setLine i v).outAt j = s.outAt j := State.outAt_congr (by simp) j

/-! ### The drive table and addresses -/

theorem State.updateDrives_drive (s : State) (ds : List Nat) (f : Nat → Drive → Drive) (d : Nat) :
    (s.updateDrives ds f).drives[d]?
      = (s.drives[d]?).map fun dr => if d ∈ ds then f d dr else dr := by
  simp [List.getElem?_mapIdx]

@[simp] theorem State.updateDrives_length (s : State) (ds : List Nat) (f : Nat → Drive → Drive) :
    (s.updateDrives ds f).drives.length = s.drives.length := by
  simp

/-- An address names drives of the table only (rule R64). -/
theorem resolve_lt {c : Config} {a : Addr} {ds : List Nat} (h : resolve c a = some ds) {d : Nat}
    (hd : d ∈ ds) : d < c.nDrives := by
  cases a with
  | single e =>
    simp only [resolve] at h
    split at h
    · cases h; simp_all
    · cases h
  | group g =>
    simp only [resolve] at h
    split at h
    · cases h; simp_all
    · cases h
  | broadcast => cases h; simpa using hd
  | reserved _ => cases h

/-- Everything an addressed command can do (rule R120): nothing while halted, nothing for an Invalid
address, otherwise one write per target. -/
theorem State.addressed_cases (s : State) (a : Addr) (f : Nat → Drive → Drive) :
    (s.addressed a f = s ∧ (s.halted = true ∨ resolve s.cfg a = none)) ∨
    (s.halted = false ∧ ∃ ds, resolve s.cfg a = some ds ∧ s.addressed a f = s.updateDrives ds f) := by
  unfold State.addressed
  cases hh : s.halted with
  | true => simp
  | false =>
    cases hr : resolve s.cfg a with
    | none => simp
    | some ds => exact .inr ⟨rfl, ds, rfl, by simp⟩

/-- An addressed command writes the drive table only (rule R72). -/
theorem State.addressed_frame (s : State) (a : Addr) (f : Nat → Drive → Drive) :
    s.addressed a f = { s with drives := (s.addressed a f).drives } := by
  rcases s.addressed_cases a f with ⟨h, -⟩ | ⟨-, ds, -, h⟩
  · rw [h]
  · rw [h]; rfl

theorem State.addressed_of_resolve {s : State} {a : Addr} {ds : List Nat} (f : Nat → Drive → Drive)
    (hh : s.halted = false) (hr : resolve s.cfg a = some ds) :
    s.addressed a f = s.updateDrives ds f := by
  simp [State.addressed, hh, hr]

/-- UNSUPPORTED writes the counter and the diagnostics only (rule R125). -/
theorem State.unsupported_of_running {s : State} (kind : Nat) (hh : s.halted = false) :
    s.unsupported kind
      = { s with unsupCount := satIncr s.unsupCount, diag := s.diag ++ [.unsupported kind] } := by
  simp [State.unsupported, hh, State.emitDiag]

theorem satIncr_toNat (n : BitVec 32) : (satIncr n).toNat = min (n.toNat + 1) (2 ^ 32 - 1) := by
  unfold satIncr
  split
  · subst_vars
    decide
  · rename_i h
    have : n.toNat ≠ 2 ^ 32 - 1 := fun h' => h (BitVec.eq_of_toNat_eq (by simpa using h'))
    have := n.isLt
    rw [BitVec.toNat_add]
    simp
    omega

/-! ### The output failure -/

/-- All of `raise OutputUnavailable` (rule R218). -/
theorem State.raiseOutputUnavailable_eq (s : State) :
    s.raiseOutputUnavailable
      = { s with
          halted := true
          drives := s.drives.map fun dr => { dr with tone := .silent }
          diag := s.diag ++ [.outputUnavailable] } := rfl

/-! ### The chain -/

/-- The three pin events of one bit (rule R100). -/
def bitEvents (seg : Nat) (v : Bool) : List PinEvent := [.ser seg v, .srclkRise seg, .srclkFall seg]

/-- What SHIFT_BIT does to its segment (rule R185). -/
def Segment.shifted (v : Bool) (g : Segment) : Segment :=
  { g with ser := v, srclk := false, sr := shiftIn g.sr v }

theorem State.shiftBit_eq (s : State) (seg : Nat) (v : Bool) :
    s.shiftBit seg v
      = { s with
          chain := s.chain.modify seg (Segment.shifted v)
          pins := s.pins ++ bitEvents seg v } := by
  simp only [State.shiftBit, State.driveSer, State.raiseSrclk, State.lowerSrclk, State.emitPin,
    State.modifySegment, List.modify_modify_eq, List.append_assoc]
  rfl

/-- LATCH: every OUT takes its SR, the clock is back at idle, two events for all segments (rule R186). -/
theorem State.latch_eq (s : State) :
    s.latch
      = { s with
          chain := s.chain.map fun g => { g with rclk := false, out := g.sr }
          pins := s.pins ++ [.rclkRise, .rclkFall] } := by
  simp only [State.latch, State.raiseRclk, State.lowerRclk, State.emitPin, List.append_assoc,
    List.map_map]
  rfl

theorem shiftIn_getLsbD (sr : Frame) (v : Bool) {k : Nat} (hk : k < 64) :
    (shiftIn sr v).getLsbD k = if k = 0 then v else sr.getLsbD (k - 1) := by
  rw [shiftIn, BitVec.getLsbD_shiftConcat]
  simp only [hk, decide_true, Bool.true_and]

/-- The order of rule R99: position 63 first, position 0 last. -/
theorem frameOrder_eq : frameOrder = (List.range 64).reverse := by decide

/-- n bits shifted in, the bit for position n-1 first: they fill positions n-1 .. 0 and push what was there
up by n places (rules R99, R185). -/
theorem shiftIn_foldl (b : Nat → Bool) (n : Nat) (sr : Frame) {k : Nat} (hk : k < 64) :
    ((List.range n).reverse.foldl (fun r j => shiftIn r (b j)) sr).getLsbD k
      = if k < n then b k else sr.getLsbD (k - n) := by
  induction n generalizing sr with
  | zero => simp
  | succ n ih =>
    rw [List.range_succ, List.reverse_append, List.reverse_singleton, List.singleton_append,
      List.foldl_cons, ih]
    rcases Nat.lt_trichotomy k n with h | h | h
    · simp [h, Nat.lt_succ_of_lt h]
    · subst h
      rw [if_neg (Nat.lt_irrefl _), if_pos (Nat.lt_succ_self _), shiftIn_getLsbD _ _ (by omega),
        Nat.sub_self, if_pos rfl]
    · have h1 : ¬ k < n := by omega
      have h2 : ¬ k < n + 1 := by omega
      have h3 : k - n ≠ 0 := by omega
      rw [if_neg h1, if_neg h2, shiftIn_getLsbD _ _ (by omega), if_neg h3]
      congr 1

/-- A segment after the bits of a list of positions. -/
theorem State.shiftList_eq (b : Nat → Bool) (seg : Nat) (ks : List Nat) (s : State) :
    ks.foldl (fun t k => t.shiftBit seg (b k)) s
      = { s with
          chain := s.chain.modify seg fun g => ks.foldl (fun g k => g.shifted (b k)) g
          pins := s.pins ++ ks.flatMap fun k => bitEvents seg (b k) } := by
  induction ks generalizing s with
  | nil =>
    have : s.chain.modify seg (fun g => g) = s.chain := List.modify_id _ _
    simp [this]
  | cons k ks ih =>
    rw [List.foldl_cons, ih, State.shiftBit_eq]
    simp only [List.modify_modify_eq, List.flatMap_cons, List.append_assoc]
    rfl

theorem Segment.shifted_foldl_sr (b : Nat → Bool) (ks : List Nat) (g : Segment) :
    (ks.foldl (fun g k => g.shifted (b k)) g).sr = ks.foldl (fun r k => shiftIn r (b k)) g.sr := by
  induction ks generalizing g with
  | nil => rfl
  | cons k ks ih => exact ih _

theorem Segment.shifted_foldl_out (b : Nat → Bool) (ks : List Nat) (g : Segment) :
    (ks.foldl (fun g k => g.shifted (b k)) g).out = g.out := by
  induction ks generalizing g with
  | nil => rfl
  | cons k ks ih => exact ih _

theorem Segment.shifted_foldl_rclk (b : Nat → Bool) (ks : List Nat) (g : Segment) :
    (ks.foldl (fun g k => g.shifted (b k)) g).rclk = g.rclk := by
  induction ks generalizing g with
  | nil => rfl
  | cons k ks ih => exact ih _

/-- The frame a segment's shift stage holds once its 64 bits are in: bit k is line `seg * 64 + k`. -/
def State.frameOf (s : State) (seg : Nat) : Frame :=
  BitVec.ofFnLE fun k : Fin 64 => s.lineAt (seg * 64 + k)

theorem State.frameOf_getLsbD (s : State) (seg : Nat) {k : Nat} (hk : k < 64) :
    (s.frameOf seg).getLsbD k = s.lineAt (seg * 64 + k) := by
  simp [State.frameOf, hk]

/-- What one serial frame does to its segment: SR holds the frame, SER its last bit, the clock is idle. -/
def Segment.loaded (f : Frame) (g : Segment) : Segment :=
  { g with ser := f.getLsbD 0, srclk := false, sr := f }

/-- The pin events of one segment's serial frame (rules R99, R100). -/
def State.segmentEvents (s : State) (seg : Nat) : List PinEvent :=
  frameOrder.flatMap fun k => bitEvents seg (s.lineAt (seg * 64 + k))

/-- One segment's serial frame, whatever the shift stage held before (rule R183). -/
theorem State.shiftSegment_eq (s : State) (seg : Nat) :
    s.shiftSegment seg
      = { s with
          chain := s.chain.modify seg (Segment.loaded (s.frameOf seg))
          pins := s.pins ++ s.segmentEvents seg } := by
  have hbank : ∀ (ks : List Nat) (t : State), t.bank = s.bank →
      ks.foldl (fun t k => t.shiftBit seg (t.lineAt (seg * frameBits + k))) t
        = ks.foldl (fun t k => t.shiftBit seg (s.lineAt (seg * 64 + k))) t := by
    intro ks
    induction ks with
    | nil => intros; rfl
    | cons k ks ih =>
      intro t ht
      rw [List.foldl_cons, List.foldl_cons, State.lineAt_congr ht]
      exact ih _ (by rw [State.shiftBit_eq]; exact ht)
  rw [State.shiftSegment, hbank _ s rfl, State.shiftList_eq (fun k => s.lineAt (seg * 64 + k))]
  congr 2
  funext g
  have hlast : frameOrder = (List.range' 1 63).reverse ++ [0] := by decide
  have hsr : (frameOrder.foldl (fun r k => shiftIn r (s.lineAt (seg * 64 + k))) g.sr)
      = s.frameOf seg := by
    apply BitVec.eq_of_getLsbD_eq
    intro k hk
    rw [frameOrder_eq, shiftIn_foldl _ _ _ hk, if_pos hk, State.frameOf_getLsbD _ _ hk]
  ext1
  · rw [hlast, List.foldl_append]
    exact (State.frameOf_getLsbD s seg (by omega : 0 < 64)).symm
  · rw [hlast, List.foldl_append]
    simp [Segment.shifted, Segment.loaded]
  · rw [Segment.shifted_foldl_rclk]; rfl
  · rw [Segment.shifted_foldl_sr, hsr]; rfl
  · rw [Segment.shifted_foldl_out]; rfl

/-- The frames of several segments, one after the other. -/
theorem State.shiftSegments_eq (segs : List Nat) (hnd : segs.Nodup) (s : State) :
    segs.foldl State.shiftSegment s
      = { s with
          chain := s.chain.mapIdx fun seg g => if seg ∈ segs then g.loaded (s.frameOf seg) else g
          pins := s.pins ++ segs.flatMap s.segmentEvents } := by
  induction segs generalizing s with
  | nil =>
    have : s.chain.mapIdx (fun _ g => g) = s.chain := by
      apply List.ext_getElem? ; intro i; simp [List.getElem?_mapIdx]
    simp [this]
  | cons a segs ih =>
    obtain ⟨ha, hnd⟩ := List.nodup_cons.1 hnd
    rw [List.foldl_cons, ih hnd, State.shiftSegment_eq]
    simp only [List.flatMap_cons, List.append_assoc]
    congr 1
    apply List.ext_getElem?
    intro i
    simp only [List.getElem?_mapIdx, List.getElem?_modify, List.mem_cons]
    cases s.chain[i]? with
    | none => rfl
    | some g =>
      by_cases hi : a = i
      · subst hi; simp [ha]
      · have hi' : ¬ i = a := fun h => hi h.symm
        simp only [hi, hi', if_false, false_or, Option.map_some, Option.map_eq_map]
        rfl

/-- What a completed FLUSH does to a segment (rule R183). -/
def Segment.flushed (f : Frame) : Segment :=
  { ser := f.getLsbD 0, srclk := false, rclk := false, sr := f, out := f }

/-- The pin events of one completed FLUSH (rules R100, R184). -/
def State.flushEvents (s : State) : List PinEvent :=
  (List.range s.cfg.nSeg).flatMap s.segmentEvents ++ [.rclkRise, .rclkFall]

/-- A FLUSH that completes (rule R183), on a chain of N_SEG segments. -/
theorem State.flush_of_outOk {s : State} (h : s.outOk = true) (hc : s.chain.length = s.cfg.nSeg) :
    s.flush
      = { s with
          chain := s.chain.mapIdx fun seg _ => .flushed (s.frameOf seg)
          pins := s.pins ++ s.flushEvents
          dirty := false } := by
  rw [State.flush, if_pos h, State.shiftAll, State.shiftSegments_eq _ List.nodup_range,
    State.latch_eq, State.clearDirty]
  simp only [State.flushEvents, List.append_assoc]
  congr 1
  apply List.ext_getElem?
  intro i
  simp only [List.getElem?_map, List.getElem?_mapIdx, Option.map_map]
  cases hg : s.chain[i]? with
  | none => rfl
  | some g =>
    have : i < s.cfg.nSeg := hc ▸ (List.getElem?_eq_some_iff.1 hg).1
    simp [this, Segment.loaded, Segment.flushed]

/-- A FLUSH that finds the output path unavailable (rule R187). -/
theorem State.flush_of_not_outOk {s : State} (h : s.outOk = false) :
    s.flush = s.raiseOutputUnavailable := by
  simp [State.flush, h]

end Sys2Proof.Machine
end

