-- ==== Sys2Proof/Laws/Tick.lean ====
section
/-! SUPPORT. What the drive loop of TICK can do, drive by drive and line by line. -/

namespace Sys2Proof.Machine

/-! ### What a valid configuration gives -/

theorem config_drive {c : Config} (h : ConfigValid c) {d : Nat} {dc : DriveConfig}
    (hd : c.drives[d]? = some dc) : DriveConfigValid c dc :=
  h.2.2.2.2.1 dc (List.mem_of_getElem? hd)

/-- The two lines of a drive differ (rule R61). -/
theorem config_step_ne_dir {c : Config} (h : ConfigValid c) {d : Nat} {dc : DriveConfig}
    (hd : c.drives[d]? = some dc) : dc.lineStep ≠ dc.lineDir := by
  have hn := (List.nodup_flatMap.1 h.2.2.2.2.2.1).1 dc (List.mem_of_getElem? hd)
  simpa using hn

/-- The lines of two drives differ (rule R61). -/
theorem config_lines_disjoint {c : Config} (h : ConfigValid c) {d e : Nat} {dc ec : DriveConfig}
    (hd : c.drives[d]? = some dc) (he : c.drives[e]? = some ec) (hne : d ≠ e) :
    dc.lineStep ≠ ec.lineStep ∧ dc.lineStep ≠ ec.lineDir ∧ dc.lineDir ≠ ec.lineStep ∧
      dc.lineDir ≠ ec.lineDir := by
  have hp := List.pairwise_iff_getElem.1 (List.nodup_flatMap.1 h.2.2.2.2.2.1).2
  obtain ⟨hd', rfl⟩ := List.getElem?_eq_some_iff.1 hd
  obtain ⟨he', rfl⟩ := List.getElem?_eq_some_iff.1 he
  rcases Nat.lt_or_gt_of_ne hne with hlt | hlt
  · have := hp d e hd' he' hlt
    simp only [Function.onFun, List.disjoint_cons_left, List.mem_cons, List.not_mem_nil] at this
    tauto
  · have := hp e d he' hd' hlt
    simp only [Function.onFun, List.disjoint_cons_left, List.mem_cons, List.not_mem_nil] at this
    tauto

/-! ### One drive -/

@[simp] theorem Drive.ticked_tone (m : Nat) (dr : Drive) : (dr.ticked m).tone = dr.tone := by
  unfold Drive.ticked
  split
  · rfl
  · split <;> rfl

theorem Drive.ticked_of_steps {dr : Drive} (m : Nat) (h : dr.steps = true) :
    dr.ticked m = dr.stepEvent m := by
  unfold Drive.ticked
  cases ht : dr.tone with
  | silent => simp [Drive.steps, ht] at h
  | active p => simp [h]

theorem Drive.ticked_of_silent {dr : Drive} (m : Nat) (h : dr.tone = .silent) : dr.ticked m = dr := by
  unfold Drive.ticked; rw [h]

/-- Without a step event the direction and the position stay (rule R154). -/
theorem Drive.ticked_of_not_steps {dr : Drive} (m : Nat) (h : dr.steps = false) :
    (dr.ticked m).pos = dr.pos ∧ (dr.ticked m).dir = dr.dir := by
  unfold Drive.ticked
  split
  · exact ⟨rfl, rfl⟩
  · simp [h]

theorem Drive.steps_iff {dr : Drive} {p : Nat} (h : dr.tone = .active p) :
    dr.steps = true ↔ p ≤ dr.cnt + 1 := by
  simp [Drive.steps, h]

/-- The invariants I1 to I4 of rule R27 are kept by a tick. -/
theorem Drive.ticked_sound {c : Config} {dc : DriveConfig} {dr : Drive} (hm : 1 ≤ dc.maxPos)
    (h : DriveSound c dc dr) : DriveSound c dc (dr.ticked dc.maxPos) := by
  obtain ⟨h1, h2, h3, h4, h5⟩ := h
  cases ht : dr.tone with
  | silent => rw [Drive.ticked_of_silent _ ht]; exact ⟨h1, h2, h3, h4, h5⟩
  | active p =>
    have hp : 1 ≤ p ∧ p ≤ c.periodMax := by simpa [ht, Drive.periodReg] using h5
    cases hs : dr.steps with
    | false =>
      have hlt : dr.cnt + 1 < p := by simpa [Drive.steps, ht] using hs
      have : dr.ticked dc.maxPos = { dr with cnt := dr.cnt + 1 } := by
        simp [Drive.ticked, ht, hs]
      rw [this]
      exact ⟨h1, h2, h3, by dsimp only; omega, h5⟩
    | true =>
      rw [Drive.ticked_of_steps _ hs]
      cases hd : dr.dir with
      | fwd =>
        have hlt : dr.pos ≠ dc.maxPos := fun h => by simp [hd] at h3; exact h3 h
        simp only [Drive.stepEvent, Drive.moved, hd, flipDir]
        refine ⟨by dsimp only; omega, fun h => absurd h (Nat.succ_ne_zero _), fun h => ?_,
          by dsimp only; omega, h5⟩
        exact if_pos (.inr h)
      | rev =>
        have hlt : dr.pos ≠ 0 := fun h => by simp [hd] at h2; exact h2 h
        simp only [Drive.stepEvent, Drive.moved, hd, flipDir]
        refine ⟨by dsimp only; omega, fun h => if_pos (.inl h), fun h => ?_,
          by dsimp only; omega, h5⟩
        change dr.pos - 1 = dc.maxPos at h
        omega

/-! ### The loop's body -/

theorem State.tickDrive_none {s : State} {d : Nat}
    (h : s.cfg.drives[d]? = none ∨ s.drives[d]? = none) : s.tickDrive d = s := by
  unfold State.tickDrive
  rcases h with h | h
  · rw [h]
  · rw [h]; split <;> simp_all

/-- Everything one pass of the drive loop can do (rules R151, R155). -/
theorem State.tickDrive_some {s : State} {d : Nat} {dc : DriveConfig} {dr : Drive}
    (hc : s.cfg.drives[d]? = some dc) (hd : s.drives[d]? = some dr) :
    s.tickDrive d
      = ((if dr.steps then (s.setDrive d (dr.ticked dc.maxPos)).setLine dc.lineStep
            (!s.lineAt dc.lineStep) else s.setDrive d (dr.ticked dc.maxPos)).reconcileLine
          dc.lineDir (dr.ticked dc.maxPos).dir) := by
  simp only [State.tickDrive, hc, hd]
  rfl

/-- Reconciling writes the bank and DIRTY at most. -/
theorem State.reconcileLine_frame (s : State) (i : Nat) (dir : Dir) :
    s.reconcileLine i dir
      = { s with bank := (s.reconcileLine i dir).bank, dirty := (s.reconcileLine i dir).dirty } := by
  unfold State.reconcileLine State.setLine
  split
  · rfl
  · split <;> rfl

theorem State.setLine_frame (s : State) (i : Nat) (v : Bool) :
    s.setLine i v = { s with bank := (s.setLine i v).bank, dirty := (s.setLine i v).dirty } := by
  unfold State.setLine
  split <;> rfl

/-- The body of the drive loop writes the drive table, the bank and DIRTY at most. -/
theorem State.tickDrive_frame (s : State) (d : Nat) :
    s.tickDrive d
      = { s with
          drives := (s.tickDrive d).drives
          bank := (s.tickDrive d).bank
          dirty := (s.tickDrive d).dirty } := by
  cases hc : s.cfg.drives[d]? with
  | none => rw [State.tickDrive_none (.inl hc)]
  | some dc =>
    cases hd : s.drives[d]? with
    | none => rw [State.tickDrive_none (.inr hd)]
    | some dr =>
      rw [State.tickDrive_some hc hd, State.reconcileLine_frame]
      split
      · rw [State.setLine_frame]; rfl
      · rfl

@[simp] theorem State.tickDrive_cfg (s : State) (d : Nat) : (s.tickDrive d).cfg = s.cfg := by
  rw [State.tickDrive_frame]

@[simp] theorem State.tickDrive_chain (s : State) (d : Nat) : (s.tickDrive d).chain = s.chain := by
  rw [State.tickDrive_frame]

@[simp] theorem State.reconcileLine_cfg (s : State) (i : Nat) (dir : Dir) :
    (s.reconcileLine i dir).cfg = s.cfg := by
  rw [State.reconcileLine_frame]

@[simp] theorem State.reconcileLine_drives (s : State) (i : Nat) (dir : Dir) :
    (s.reconcileLine i dir).drives = s.drives := by
  rw [State.reconcileLine_frame]

@[simp] theorem State.reconcileLine_bank_length (s : State) (i : Nat) (dir : Dir) :
    (s.reconcileLine i dir).bank.length = s.bank.length := by
  unfold State.reconcileLine; split <;> simp

theorem State.reconcileLine_lineAt {s : State} (hb : s.bank.length = s.cfg.nLines) {i : Nat}
    (hi : i < s.cfg.nLines) (dir : Dir) (j : Nat) :
    (s.reconcileLine i dir).lineAt j = if j = i then dirLevel s.cfg dir else s.lineAt j := by
  unfold State.reconcileLine
  split
  · split
    · subst_vars; assumption
    · rfl
  · exact State.setLine_lineAt hb _ hi j

theorem State.reconcileLine_lineAt_ne {s : State} {i j : Nat} (dir : Dir) (h : j ≠ i) :
    (s.reconcileLine i dir).lineAt j = s.lineAt j := by
  unfold State.reconcileLine
  split
  · rfl
  · exact State.setLine_lineAt_ne _ h

theorem State.tickDrive_drive (s : State) (d e : Nat) :
    (s.tickDrive d).drives[e]?
      = if e = d then
          (s.drives[d]?).map fun dr => match s.cfg.drives[d]? with
            | some dc => dr.ticked dc.maxPos
            | none => dr
        else s.drives[e]? := by
  cases hc : s.cfg.drives[d]? with
  | none =>
    rw [State.tickDrive_none (.inl hc)]
    split
    · subst_vars; simp
    · rfl
  | some dc =>
    cases hd : s.drives[d]? with
    | none =>
      rw [State.tickDrive_none (.inr hd)]
      split
      · subst_vars; simp [hd]
      · rfl
    | some dr =>
      have hlt := (List.getElem?_eq_some_iff.1 hd).1
      have hset : (s.tickDrive d).drives = s.drives.set d (dr.ticked dc.maxPos) := by
        rw [State.tickDrive_some hc hd]
        split <;> simp
      rw [hset]
      by_cases he : e = d
      · subst he; simp [hlt]
      · simp [List.getElem?_set_ne (Ne.symm he), he]

@[simp] theorem State.tickDrive_drives_length (s : State) (d : Nat) :
    (s.tickDrive d).drives.length = s.drives.length := by
  cases hc : s.cfg.drives[d]? with
  | none => rw [State.tickDrive_none (.inl hc)]
  | some dc =>
    cases hd : s.drives[d]? with
    | none => rw [State.tickDrive_none (.inr hd)]
    | some dr => rw [State.tickDrive_some hc hd]; split <;> simp

@[simp] theorem State.tickDrive_bank_length (s : State) (d : Nat) :
    (s.tickDrive d).bank.length = s.bank.length := by
  cases hc : s.cfg.drives[d]? with
  | none => rw [State.tickDrive_none (.inl hc)]
  | some dc =>
    cases hd : s.drives[d]? with
    | none => rw [State.tickDrive_none (.inr hd)]
    | some dr => rw [State.tickDrive_some hc hd]; split <;> simp

/-- The lines after one pass: the step line toggled by a step event, the direction line in agreement, every
other line as before (rules R153, R155). -/
theorem State.tickDrive_lineAt {s : State} {d : Nat} {dc : DriveConfig} {dr : Drive}
    (hv : ConfigValid s.cfg) (hb : s.bank.length = s.cfg.nLines)
    (hc : s.cfg.drives[d]? = some dc) (hd : s.drives[d]? = some dr) (j : Nat) :
    (s.tickDrive d).lineAt j
      = if j = dc.lineDir then dirLevel s.cfg (dr.ticked dc.maxPos).dir
        else if j = dc.lineStep then (s.lineAt j ^^ dr.steps)
        else s.lineAt j := by
  have hdc := config_drive hv hc
  rw [State.tickDrive_some hc hd]
  cases hs : dr.steps with
  | false =>
    rw [if_neg (by simp), State.reconcileLine_lineAt (by simpa using hb) (by simpa using hdc.2.1)]
    simp only [State.setDrive_cfg]
    split
    · rfl
    · split <;> simp [State.lineAt]
  | true =>
    rw [if_pos rfl, State.reconcileLine_lineAt (by simpa using hb) (by simpa using hdc.2.1)]
    simp only [State.setLine_cfg, State.setDrive_cfg]
    split
    · rfl
    · rw [State.setLine_lineAt (by simpa using hb) _ (by simpa using hdc.1)]
      split
      · subst_vars; simp
      · rfl

/-- Lines that are not the drive's are not touched, whatever the configuration. -/
theorem State.tickDrive_lineAt_other {s : State} {d : Nat} {j : Nat}
    (h : ∀ dc, s.cfg.drives[d]? = some dc → j ≠ dc.lineStep ∧ j ≠ dc.lineDir) :
    (s.tickDrive d).lineAt j = s.lineAt j := by
  cases hc : s.cfg.drives[d]? with
  | none => rw [State.tickDrive_none (.inl hc)]
  | some dc =>
    cases hd : s.drives[d]? with
    | none => rw [State.tickDrive_none (.inr hd)]
    | some dr =>
      rw [State.tickDrive_some hc hd, State.reconcileLine_lineAt_ne _ (h dc hc).2]
      split
      · rw [State.setLine_lineAt_ne _ (h dc hc).1]; rfl
      · rfl

/-- DIRTY after one pass: kept, or set by a step event or by a direction line that disagreed. -/
theorem State.tickDrive_dirty {s : State} {d : Nat} {dc : DriveConfig} {dr : Drive}
    (hv : ConfigValid s.cfg) (hc : s.cfg.drives[d]? = some dc) (hd : s.drives[d]? = some dr) :
    (s.tickDrive d).dirty
      = (s.dirty || dr.steps ||
          (s.lineAt dc.lineDir != dirLevel s.cfg (dr.ticked dc.maxPos).dir)) := by
  have hdc := config_drive hv hc
  have hne := config_step_ne_dir hv hc
  rw [State.tickDrive_some hc hd]
  cases hs : dr.steps with
  | false =>
    rw [if_neg (by simp), State.reconcileLine]
    have : (s.setDrive d (dr.ticked dc.maxPos)).lineAt dc.lineDir = s.lineAt dc.lineDir := rfl
    simp only [State.setDrive_cfg, this]
    split
    · simp [*]
    · simp [State.setLine_dirty, hdc.2.1, *]
  | true =>
    rw [if_pos rfl, State.reconcileLine]
    split <;> simp [State.setLine_dirty, hdc.1]

/-! ### The loop -/

theorem State.tickDrives_frame (ds : List Nat) (s : State) :
    s.tickDrives ds
      = { s with
          drives := (s.tickDrives ds).drives
          bank := (s.tickDrives ds).bank
          dirty := (s.tickDrives ds).dirty } := by
  induction ds generalizing s with
  | nil => rfl
  | cons d ds ih =>
    have h1 := ih (s.tickDrive d)
    have h2 := State.tickDrive_frame s d
    rw [State.ext_iff] at h1 h2 ⊢
    obtain ⟨a1, -, -, -, a5, a6, a7, a8, a9, a10, a11, a12⟩ := h1
    obtain ⟨b1, -, -, -, b5, b6, b7, b8, b9, b10, b11, b12⟩ := h2
    exact ⟨a1.trans b1, rfl, rfl, rfl, a5.trans b5, a6.trans b6, a7.trans b7, a8.trans b8,
      a9.trans b9, a10.trans b10, a11.trans b11, a12.trans b12⟩

theorem State.tickDrives_cons (s : State) (d : Nat) (ds : List Nat) :
    s.tickDrives (d :: ds) = (s.tickDrive d).tickDrives ds := rfl

@[simp] theorem State.tickDrives_cfg (s : State) (ds : List Nat) : (s.tickDrives ds).cfg = s.cfg := by
  rw [State.tickDrives_frame]

@[simp] theorem State.tickDrives_chain (s : State) (ds : List Nat) :
    (s.tickDrives ds).chain = s.chain := by
  rw [State.tickDrives_frame]

@[simp] theorem State.tickDrives_pins (s : State) (ds : List Nat) : (s.tickDrives ds).pins = s.pins := by
  rw [State.tickDrives_frame]

@[simp] theorem State.tickDrives_outOk (s : State) (ds : List Nat) :
    (s.tickDrives ds).outOk = s.outOk := by
  rw [State.tickDrives_frame]

@[simp] theorem State.tickDrives_halted (s : State) (ds : List Nat) :
    (s.tickDrives ds).halted = s.halted := by
  rw [State.tickDrives_frame]

@[simp] theorem State.tickDrives_drives_length (s : State) (ds : List Nat) :
    (s.tickDrives ds).drives.length = s.drives.length := by
  induction ds generalizing s with
  | nil => rfl
  | cons d ds ih => rw [State.tickDrives_cons, ih, State.tickDrive_drives_length]

@[simp] theorem State.tickDrives_bank_length (s : State) (ds : List Nat) :
    (s.tickDrives ds).bank.length = s.bank.length := by
  induction ds generalizing s with
  | nil => rfl
  | cons d ds ih => rw [State.tickDrives_cons, ih, State.tickDrive_bank_length]

theorem State.tickDrives_drive_other {d : Nat} {ds : List Nat} (h : d ∉ ds) (s : State) :
    (s.tickDrives ds).drives[d]? = s.drives[d]? := by
  induction ds generalizing s with
  | nil => rfl
  | cons e ds ih =>
    have hne := List.ne_of_not_mem_cons h
    have hds := List.not_mem_of_not_mem_cons h
    rw [State.tickDrives_cons, ih hds, State.tickDrive_drive, if_neg hne]

/-- A drive the loop visits once is ticked once. -/
theorem State.tickDrives_drive {ds : List Nat} (hn : ds.Nodup) {d : Nat} (h : d ∈ ds) {s : State}
    {dc : DriveConfig} (hc : s.cfg.drives[d]? = some dc) :
    (s.tickDrives ds).drives[d]? = (s.drives[d]?).map (Drive.ticked dc.maxPos) := by
  induction ds generalizing s with
  | nil => cases h
  | cons e ds ih =>
    obtain ⟨he, hn⟩ := List.nodup_cons.1 hn
    rw [State.tickDrives_cons]
    rcases List.mem_cons.1 h with rfl | h
    · rw [State.tickDrives_drive_other he, State.tickDrive_drive, if_pos rfl]
      simp only [hc]
    · rw [ih hn h (by simpa using hc), State.tickDrive_drive,
        if_neg (ne_of_mem_of_not_mem h he)]

theorem State.tickDrives_lineAt_other {j : Nat} {ds : List Nat} {s : State}
    (h : ∀ d ∈ ds, ∀ dc, s.cfg.drives[d]? = some dc → j ≠ dc.lineStep ∧ j ≠ dc.lineDir) :
    (s.tickDrives ds).lineAt j = s.lineAt j := by
  induction ds generalizing s with
  | nil => rfl
  | cons d ds ih =>
    rw [State.tickDrives_cons, ih fun e he => by simpa using h e (List.mem_cons_of_mem _ he)]
    exact State.tickDrive_lineAt_other (h d List.mem_cons_self)

/-- The two lines of a drive the loop visits once (rules R153, R155, R162). -/
theorem State.tickDrives_lines {ds : List Nat} (hn : ds.Nodup) {d : Nat} (h : d ∈ ds) {s : State}
    (hv : ConfigValid s.cfg) (hb : s.bank.length = s.cfg.nLines) {dc : DriveConfig} {dr : Drive}
    (hc : s.cfg.drives[d]? = some dc) (hd : s.drives[d]? = some dr) :
    (s.tickDrives ds).lineAt dc.lineStep = (s.lineAt dc.lineStep ^^ dr.steps) ∧
    (s.tickDrives ds).lineAt dc.lineDir = dirLevel s.cfg (dr.ticked dc.maxPos).dir := by
  induction ds generalizing s with
  | nil => cases h
  | cons e ds ih =>
    obtain ⟨he, hn⟩ := List.nodup_cons.1 hn
    have hne := config_step_ne_dir hv hc
    rw [State.tickDrives_cons]
    rcases List.mem_cons.1 h with rfl | h
    · have hother : ∀ f ∈ ds, ∀ fc, (s.tickDrive d).cfg.drives[f]? = some fc →
          (dc.lineStep ≠ fc.lineStep ∧ dc.lineStep ≠ fc.lineDir) ∧
          (dc.lineDir ≠ fc.lineStep ∧ dc.lineDir ≠ fc.lineDir) := by
        intro f hf fc hfc
        have hdf : d ≠ f := fun h' => he (h' ▸ hf)
        obtain ⟨a, b, a', b'⟩ := config_lines_disjoint hv hc (by simpa using hfc) hdf
        exact ⟨⟨a, b⟩, a', b'⟩
      rw [State.tickDrives_lineAt_other fun f hf fc hfc => (hother f hf fc hfc).1,
        State.tickDrives_lineAt_other fun f hf fc hfc => (hother f hf fc hfc).2,
        State.tickDrive_lineAt hv hb hc hd, State.tickDrive_lineAt hv hb hc hd]
      simp [hne]
    · have hde : d ≠ e := fun h' => he (h' ▸ h)
      have hother : ∀ ec, s.cfg.drives[e]? = some ec →
          (dc.lineStep ≠ ec.lineStep ∧ dc.lineStep ≠ ec.lineDir) ∧
          (dc.lineDir ≠ ec.lineStep ∧ dc.lineDir ≠ ec.lineDir) := by
        intro ec hec
        obtain ⟨a, b, a', b'⟩ := config_lines_disjoint hv hc hec hde
        exact ⟨⟨a, b⟩, a', b'⟩
      have := ih hn h (s := s.tickDrive e) (by simpa using hv) (by simpa using hb)
        (by simpa using hc) (by rw [State.tickDrive_drive, if_neg hde]; exact hd)
      rw [this.1, this.2,
        State.tickDrive_lineAt_other fun ec hec => (hother ec hec).1, State.tickDrive_cfg]
      exact ⟨rfl, rfl⟩

/-- A step-free visit to a drive whose direction line agrees leaves the bank and DIRTY alone; with nothing
but such visits the loop moves counters only (rule R157). -/
theorem State.tickDrive_quiet {s : State} {d : Nat} {dc : DriveConfig} {dr : Drive}
    (hc : s.cfg.drives[d]? = some dc) (hd : s.drives[d]? = some dr) (hs : dr.steps = false)
    (ha : s.lineAt dc.lineDir = dirLevel s.cfg dr.dir) :
    s.tickDrive d = s.setDrive d (dr.ticked dc.maxPos) := by
  rw [State.tickDrive_some hc hd, hs, if_neg (by simp), State.reconcileLine,
    (Drive.ticked_of_not_steps _ hs).2]
  exact if_pos ha

/-- TICK outside the halt (rules R151, R156). -/
theorem State.tick_of_running {s : State} (h : s.halted = false) :
    s.tick
      = if (s.tickDrives (List.range s.cfg.nDrives)).dirty
        then (s.tickDrives (List.range s.cfg.nDrives)).flush
        else s.tickDrives (List.range s.cfg.nDrives) := by
  simp [State.tick, h]

/-- TICK in the halt (rule R219). -/
theorem State.tick_of_halted {s : State} (h : s.halted = true) : s.tick = s := by
  simp [State.tick, h]

end Sys2Proof.Machine
end

