-- ==== Sys2Proof/Laws/Step.lean ====
section
/-! SUPPORT. What a step can do, said once. -/

namespace Sys2Proof.Machine

/-- What decodes has a port, so no step performs a pin micro-operation by itself (rule R98). -/
theorem decode_has_port {w : PortWord} {i : Instr} (h : decode w = .ok i) : i.port ≠ none := by
  cases w with
  | command w =>
    simp only [decode, Except.ok.injEq] at h
    subst h
    unfold decodeCommand
    have := field_lt w 31 28
    generalize field w 31 28 = kind at this
    norm_num at this
    interval_cases kind <;> simp [unsupportedOfKind, Instr.port]
  | multiplexer w =>
    simp only [decode, Except.ok.injEq] at h
    subst h
    unfold decodeMux
    split <;> simp [Instr.port]
  | timer b =>
    simp only [decode] at h
    split at h <;> cases h
    simp [Instr.port]
  | reset b =>
    simp only [decode] at h
    split at h <;> cases h
    simp [Instr.port]

/-- INIT is what the reset strobe stands for, and nothing else is. -/
theorem decode_init {w : PortWord} (h : decode w = .ok .init) : w = .reset 1 := by
  cases w with
  | command w =>
    simp only [decode, Except.ok.injEq] at h
    unfold decodeCommand at h
    have := field_lt w 31 28
    generalize field w 31 28 = kind at this h
    norm_num at this
    interval_cases kind <;> simp [unsupportedOfKind] at h
  | multiplexer w =>
    simp only [decode, Except.ok.injEq] at h
    unfold decodeMux at h
    split at h <;> cases h
  | timer b =>
    simp only [decode] at h
    split at h <;> cases h
  | reset b =>
    simp only [decode] at h
    split at h <;> cases h
    simp [*]

/-- Every way a step can give a next state. -/
theorem step_cases {s t : State} (h : step s = .next t) :
    (s.inputs = [] ∧ t = s) ∨
    (∃ level rest, s.inputs = .outOk level :: rest ∧ t = { s with inputs := rest, outOk := level }) ∨
    (∃ e logged rest, s.inputs = .decodeError e logged :: rest ∧
      t = (s.withInputs rest).frameDropped e logged) ∨
    (∃ w rest, s.inputs = .word w :: rest ∧ t = s.withInputs rest) ∨
    (∃ w rest i, s.inputs = .word w :: rest ∧ decode w = .ok i ∧
      exec i (s.withInputs rest) = .next t) := by
  unfold step at h
  split at h
  · rename_i hs; cases h; exact .inl ⟨hs, rfl⟩
  · rename_i level rest hs; cases h; exact .inr (.inl ⟨level, rest, hs, rfl⟩)
  · rename_i e logged rest hs; cases h; exact .inr (.inr (.inl ⟨e, logged, rest, hs, rfl⟩))
  · rename_i w rest hs
    split at h
    · rename_i i hi; exact .inr (.inr (.inr (.inr ⟨w, rest, i, hs, hi, h⟩)))
    · cases h; exact .inr (.inr (.inr (.inl ⟨w, rest, hs, rfl⟩)))

theorem State.frameDropped_frame (s : State) (e : DecodeError) (logged : Bool) :
    s.frameDropped e logged = { s with diag := (s.frameDropped e logged).diag } := by
  unfold State.frameDropped
  split <;> rfl

end Sys2Proof.Machine
end

