-- ==== Sys2Proof/Laws/Exec.lean ====
section
/-! SUPPORT. What FLUSH, TICK and a whole operation can do, said once, so that no later proof unfolds
them. -/

namespace Sys2Proof.Machine

/-! ### FLUSH -/

/-- A FLUSH that completes writes the chain, the trace and DIRTY only, whatever the shape of the state
(rule R183). -/
theorem State.flush_frame {s : State} (h : s.outOk = true) :
    s.flush = { s with chain := s.flush.chain, pins := s.pins ++ s.flushEvents, dirty := false } := by
  rw [State.flush, if_pos h, State.clearDirty, State.latch_eq, State.shiftAll,
    State.shiftSegments_eq _ List.nodup_range]
  simp [State.flushEvents]

theorem State.segmentEvents_length (s : State) (seg : Nat) : (s.segmentEvents seg).length = 192 := by
  simp [State.segmentEvents, bitEvents, frameOrder_eq]

/-- N_SEG × 192 + 2 events (rule R184). -/
theorem State.flushEvents_length (s : State) : s.flushEvents.length = s.cfg.nSeg * 192 + 2 := by
  simp [State.flushEvents, State.segmentEvents_length]

theorem State.rclkRise_not_mem_segmentEvents (s : State) (seg : Nat) :
    PinEvent.rclkRise ∉ s.segmentEvents seg := by
  simp [State.segmentEvents, bitEvents]

/-- After a frame is latched the outputs show the bank it was taken from (rule R183). -/
theorem State.outAt_of_flushed {s t : State}
    (hc : t.chain = s.chain.mapIdx fun seg _ => .flushed (s.frameOf seg)) (hb : t.bank = s.bank)
    (hl : s.chain.length = s.cfg.nSeg) {i : Nat} (hi : i < s.cfg.nLines) :
    t.outAt i = t.lineAt i := by
  have hlt : i / 64 < s.chain.length := by
    simp only [Config.nLines, frameBits, halfBits] at hi
    omega
  rw [State.lineAt_congr hb, State.outAt, hc]
  simp only [frameBits, halfBits, List.getElem?_mapIdx, List.getElem?_eq_getElem hlt, Option.map_some,
    Segment.flushed]
  rw [State.frameOf_getLsbD _ _ (Nat.mod_lt _ (by decide))]
  congr 1
  omega

/-! ### The drive loop and DIRTY -/

theorem State.reconcileLine_dirty_mono {s : State} (i : Nat) (dir : Dir) (h : s.dirty = true) :
    (s.reconcileLine i dir).dirty = true := by
  unfold State.reconcileLine
  split
  · exact h
  · simp [State.setLine_dirty, h]

/-- The loop never clears DIRTY (rule R33). -/
theorem State.tickDrives_dirty_mono (ds : List Nat) {s : State} (h : s.dirty = true) :
    (s.tickDrives ds).dirty = true := by
  induction ds generalizing s with
  | nil => exact h
  | cons d ds ih =>
    refine ih ?_
    cases hc : s.cfg.drives[d]? with
    | none => rwa [State.tickDrive_none (.inl hc)]
    | some dc =>
      cases hd : s.drives[d]? with
      | none => rwa [State.tickDrive_none (.inr hd)]
      | some dr =>
        rw [State.tickDrive_some hc hd]
        apply State.reconcileLine_dirty_mono
        split <;> simp [State.setLine_dirty, h]

theorem State.setLine_clean {s : State} {i : Nat} {v : Bool} (h : (s.setLine i v).dirty = false) :
    s.setLine i v = s := by
  rw [State.setLine_dirty, Bool.or_eq_false_iff, decide_eq_false_iff_not] at h
  exact State.setLine_of_ge (Nat.not_lt.1 h.1)

theorem State.reconcileLine_clean {s : State} {i : Nat} {dir : Dir}
    (h : (s.reconcileLine i dir).dirty = false) : s.reconcileLine i dir = s := by
  unfold State.reconcileLine at *
  split at h
  · exact if_pos ‹_›
  · rw [if_neg ‹_›]; exact State.setLine_clean h

/-- A loop that leaves DIRTY at 0 found it so and wrote no line. -/
theorem State.tickDrives_clean {ds : List Nat} {s : State} (h : (s.tickDrives ds).dirty = false) :
    s.dirty = false ∧ (s.tickDrives ds).bank = s.bank := by
  induction ds generalizing s with
  | nil => exact ⟨h, rfl⟩
  | cons d ds ih =>
    obtain ⟨h, hb⟩ := ih h
    rw [State.tickDrives_cons, hb]
    cases hc : s.cfg.drives[d]? with
    | none => rw [State.tickDrive_none (.inl hc)] at *; exact ⟨h, rfl⟩
    | some dc =>
      cases hd : s.drives[d]? with
      | none => rw [State.tickDrive_none (.inr hd)] at *; exact ⟨h, rfl⟩
      | some dr =>
        rw [State.tickDrive_some hc hd] at h ⊢
        have hr := State.reconcileLine_clean h
        rw [hr] at h ⊢
        split at h <;> rename_i hs
        · have hw := State.setLine_clean h
          rw [if_pos hs, hw]
          rw [hw] at h
          exact ⟨h, rfl⟩
        · rw [if_neg hs]; exact ⟨h, rfl⟩

/-- The loop writes no TONE (rule R151). -/
theorem State.tickDrives_tones (ds : List Nat) (s : State) :
    (s.tickDrives ds).drives.map (·.tone) = s.drives.map (·.tone) := by
  induction ds generalizing s with
  | nil => rfl
  | cons d ds ih =>
    rw [State.tickDrives_cons, ih]
    apply List.ext_getElem?
    intro i
    simp only [List.getElem?_map, State.tickDrive_drive]
    by_cases h : i = d
    · subst h
      simp only [if_true]
      cases s.drives[i]? <;> cases s.cfg.drives[i]? <;> simp
    · simp [h]

/-! ### TICK -/

/-- The three things a tick can be for a drive (rules R151, R152). -/
theorem Drive.ticked_cases (m : Nat) (dr : Drive) :
    (dr.tone = .silent ∧ dr.ticked m = dr) ∨
    (∃ p, dr.tone = .active p ∧ dr.cnt + 1 < p ∧ dr.ticked m = { dr with cnt := dr.cnt + 1 }) ∨
    (∃ p, dr.tone = .active p ∧ p ≤ dr.cnt + 1 ∧ dr.ticked m = dr.stepEvent m) := by
  cases ht : dr.tone with
  | silent => exact .inl ⟨rfl, Drive.ticked_of_silent _ ht⟩
  | active p =>
    right
    by_cases h : p ≤ dr.cnt + 1
    · exact .inr ⟨p, rfl, h, Drive.ticked_of_steps _ ((Drive.steps_iff ht).2 h)⟩
    · refine .inl ⟨p, rfl, by omega, ?_⟩
      have : dr.steps = false := by rw [← Bool.not_eq_true, Drive.steps_iff ht]; exact h
      simp [Drive.ticked, ht, this]

/-- A TICK with the output path available (rules R151, R156): the loop's drives and bank, DIRTY clear, and
one FLUSH exactly when the loop ended with DIRTY set. -/
theorem State.tick_of_outOk {s : State} (hh : s.halted = false) (ho : s.outOk = true) :
    ∃ (looped : State) (chain : List Segment) (added : List PinEvent),
      looped = s.tickDrives (List.range s.cfg.nDrives) ∧
      s.tick = { s with
        drives := looped.drives
        bank := looped.bank
        dirty := false
        chain := chain
        pins := s.pins ++ added } ∧
      ((looped.dirty = false ∧ chain = s.chain ∧ added = []) ∨
       (looped.dirty = true ∧ added = looped.flushEvents ∧
         (s.chain.length = s.cfg.nSeg →
           chain = s.chain.mapIdx fun seg _ => .flushed (looped.frameOf seg)))) := by
  rw [State.tick_of_running hh]
  have hf := State.tickDrives_frame (List.range s.cfg.nDrives) s
  have hl : (s.tickDrives (List.range s.cfg.nDrives)).chain.length = s.chain.length := by simp
  generalize s.tickDrives (List.range s.cfg.nDrives) = u at *
  cases hd : u.dirty with
  | false =>
    refine ⟨u, s.chain, [], rfl, ?_, .inl ⟨hd, rfl, rfl⟩⟩
    rw [if_neg (by simp), hf, ← hd, List.append_nil]
  | true =>
    have hou : u.outOk = true := by rw [hf]; exact ho
    have hcu : u.cfg = s.cfg := by rw [hf]
    refine ⟨u, u.flush.chain, u.flushEvents, rfl, ?_, .inr ⟨hd, rfl, fun hs => ?_⟩⟩
    · have hflush := State.flush_frame hou
      rw [State.ext_iff] at hf hflush ⊢
      obtain ⟨a1, -, -, -, a5, a6, -, a8, a9, a10, a11, a12⟩ := hf
      obtain ⟨b1, b2, b3, b4, b5, b6, b7, b8, b9, b10, b11, b12⟩ := hflush
      rw [if_pos rfl]
      exact ⟨b1.trans a1, b2, b3, b4, b5.trans a5, b6.trans a6, rfl, b8.trans (by rw [a8]),
        b9.trans a9, b10.trans a10, b11.trans a11, b12.trans a12⟩
    · rw [State.flush_of_outOk hou (by rw [hl, hs, hcu])]
      simp only [show u.chain = s.chain by rw [hf]]

/-- A TICK with the output path gone (rules R151, R187): the loop, and the halt when the loop ended with
DIRTY set. -/
theorem State.tick_of_not_outOk {s : State} (hh : s.halted = false) (ho : s.outOk = false) :
    ∃ looped : State, looped = s.tickDrives (List.range s.cfg.nDrives) ∧
      ((looped.dirty = false ∧ s.tick = looped) ∨
       (looped.dirty = true ∧ s.tick = looped.raiseOutputUnavailable)) := by
  rw [State.tick_of_running hh]
  have hou : (s.tickDrives (List.range s.cfg.nDrives)).outOk = false := by simpa using ho
  refine ⟨_, rfl, ?_⟩
  cases hd : (s.tickDrives (List.range s.cfg.nDrives)).dirty with
  | false => simp
  | true => right; simpa using State.flush_of_not_outOk hou

/-! ### A whole operation -/

theorem State.unsupported_frame (s : State) (kind : Nat) :
    s.unsupported kind
      = { s with
          unsupCount := (s.unsupported kind).unsupCount
          diag := (s.unsupported kind).diag } := by
  unfold State.unsupported
  split <;> rfl

/-- Every way an operation can give a next state. -/
theorem exec_cases {i : Instr} {s t : State} (h : exec i s = .next t) :
    (∃ a f, i = .noteOn a f ∧ t = s.addressed a (noteOnDrive s.cfg f)) ∨
    (∃ a, i = .noteOff a ∧ t = s.addressed a fun _ dr => dr.silence) ∨
    (∃ a, i = .reset a ∧ t = s.addressed a fun _ dr => resetDrive s.cfg dr) ∨
    (∃ kind, i.unsupportedKind = some kind ∧ t = s.unsupported kind) ∨
    (∃ k v, i = .setLine k v ∧ t = s.setLine k v) ∨
    (i = .flush ∧ t = s.flush) ∨ (i = .tick ∧ t = s.tick) ∨
    (i = .init ∧ ConfigValid s.cfg ∧ t = s.initialise) ∨
    (∃ k v, i = .shiftBit k v ∧ k < s.cfg.nSeg ∧ t = s.shiftBit k v) ∨
    (i = .latch ∧ t = s.latch) := by
  cases i with
  | noteOn a f => cases h; exact .inl ⟨a, f, rfl, rfl⟩
  | noteOff a => cases h; exact .inr (.inl ⟨a, rfl, rfl⟩)
  | reset a => cases h; exact .inr (.inr (.inl ⟨a, rfl, rfl⟩))
  | setLine k v => cases h; exact .inr (.inr (.inr (.inr (.inl ⟨k, v, rfl, rfl⟩))))
  | flush => cases h; exact .inr (.inr (.inr (.inr (.inr (.inl ⟨rfl, rfl⟩)))))
  | tick => cases h; exact .inr (.inr (.inr (.inr (.inr (.inr (.inl ⟨rfl, rfl⟩))))))
  | init =>
    simp only [exec, execInit] at h
    split at h
    · cases h
      exact .inr (.inr (.inr (.inr (.inr (.inr (.inr (.inl ⟨rfl, ‹_›, rfl⟩)))))))
    · cases h
  | shiftBit k v =>
    simp only [exec, execShiftBit] at h
    split at h
    · cases h
      exact .inr (.inr (.inr (.inr (.inr (.inr (.inr (.inr (.inl ⟨k, v, rfl, ‹_›, rfl⟩))))))))
    · cases h
  | latch => cases h; exact .inr (.inr (.inr (.inr (.inr (.inr (.inr (.inr (.inr ⟨rfl, rfl⟩))))))))
  | unsupportedK0 | unsupportedK4 | unsupportedK5 | unsupportedK6 | unsupportedK7 | unsupportedK8
  | unsupportedK9 | unsupportedK10 | unsupportedK11 | unsupportedK12 | unsupportedK13
  | unsupportedK14 | unsupportedK15 => cases h; exact .inr (.inr (.inr (.inl ⟨_, rfl, rfl⟩)))

end Sys2Proof.Machine
end

