-- ==== Sys2Proof/Laws/PerInstr.lean ====
section
/-! SUPPORT. Statements about every operation as syntax, one lemma per constructor. -/

namespace Sys2Proof.Laws.EncodePort

/-- An operation's word stands on the operation's own port (spec/30_encoding.md rule R91), and an operation
without a port has no word (rule R98). -/
def Statement (i : Instr) : Prop := (encode i).map PortWord.port = i.port

theorem noteOn (addr : Addr) (freq : Nat) : Statement (.noteOn addr freq) := rfl

theorem noteOff (addr : Addr) : Statement (.noteOff addr) := rfl

theorem reset (addr : Addr) : Statement (.reset addr) := rfl

theorem unsupportedK0 : Statement (.unsupportedK0) := rfl

theorem unsupportedK4 : Statement (.unsupportedK4) := rfl

theorem unsupportedK5 : Statement (.unsupportedK5) := rfl

theorem unsupportedK6 : Statement (.unsupportedK6) := rfl

theorem unsupportedK7 : Statement (.unsupportedK7) := rfl

theorem unsupportedK8 : Statement (.unsupportedK8) := rfl

theorem unsupportedK9 : Statement (.unsupportedK9) := rfl

theorem unsupportedK10 : Statement (.unsupportedK10) := rfl

theorem unsupportedK11 : Statement (.unsupportedK11) := rfl

theorem unsupportedK12 : Statement (.unsupportedK12) := rfl

theorem unsupportedK13 : Statement (.unsupportedK13) := rfl

theorem unsupportedK14 : Statement (.unsupportedK14) := rfl

theorem unsupportedK15 : Statement (.unsupportedK15) := rfl

theorem setLine (index : Nat) (state : Bool) : Statement (.setLine index state) := rfl

theorem flush : Statement (.flush) := rfl

theorem tick : Statement (.tick) := rfl

theorem init : Statement (.init) := rfl

theorem shiftBit (seg : Nat) (bit : Bool) : Statement (.shiftBit seg bit) := rfl

theorem latch : Statement (.latch) := rfl

end Sys2Proof.Laws.EncodePort
end

