-- ==== Sys2Proof/Tests/Slice0.lean ====
section
/-! SUPPORT. Tests of single operations against the vectors of spec/95_test_vectors.md and the encodings of
spec/30_encoding.md, and, for every statement with hypotheses, a state and operands that meet them. -/

open Sys2Proof Sys2Proof.Machine

namespace Sys2Proof.Tests

/-! ### Helpers -/

/-- The next state, if there is one. -/
def nextState (o : Host.Outcome State Fault Refusal) : Option State :=
  match o with
  | .next s => some s
  | .fault _ | .refused _ => none

/-- What stopped it, if something did. -/
def stopped (o : Host.Outcome State Fault Refusal) : Option (Fault ⊕ Refusal) :=
  match o with
  | .next _ => none
  | .fault r => some (.inl r)
  | .refused r => some (.inr r)

/-- One step that performs the word of a row on a state. -/
def stepWord (s : State) (nbits w : Nat) : Option State := nextState (step (s.withFetchWord nbits w))

/-- A drive at rest. -/
def restingDrive : Drive := ⟨0, .fwd, .silent, 0⟩

/-- The start state of the command vectors of spec/95 section 2.3: drive 3 = (7, REV, 11, 4), every other
drive at rest, its direction line 25 at 1, one whole frame latched. -/
def playing (c : Config) : State where
  cfg := c
  drives := (List.replicate c.nDrives restingDrive).set 3 ⟨7, .rev, .active 11, 4⟩
  bank := (List.replicate c.nLines false).set 25 true
  dirty := false
  halted := false
  unsupCount := 0
  chain := [⟨false, false, false, 0x02000000, 0x02000000⟩]
  pins := [.rclkRise, .rclkFall]
  diag := []
  outOk := true
  inputs := []
  draws := 1

/-- A block with one drive on lines 0 and 1, as the TICK vectors of spec/95 section 2.4 show it; the frame of
the bank is latched. -/
def oneDrive (maxPos : Nat) (dr : Drive) (dirLine stepLine : Bool) : State where
  cfg := { Config.withDefaults 10000 maxPos false with drives := [Config.defaultDrive 8 maxPos 0] }
  drives := [dr]
  bank := stepLine :: dirLine :: List.replicate 62 false
  dirty := false
  halted := false
  unsupCount := 0
  chain := [⟨stepLine, false, false, BitVec.ofNat 64 (2 * dirLine.toNat + stepLine.toNat),
    BitVec.ofNat 64 (2 * dirLine.toNat + stepLine.toNat)⟩]
  pins := [.rclkRise, .rclkFall]
  diag := []
  outOk := true
  inputs := []
  draws := 1

/-- Two groups: drives 4 and 1, and none (vectors V-C20, V-C21). -/
def groupConfig : Config := { Config.scenario with groups := [[4, 1], []] }

/-- A configuration that breaks a constraint of rule R8. -/
def badConfig : Config := { Config.scenario with tickRate := 0 }

/-! ### Well-formedness: each check refuses an ill-formed operation -/

theorem test_wf_refuses_a_wide_drive : (Instr.noteOff (.single 1024)).wf = false := by decide

theorem test_wf_refuses_a_wide_group : (Instr.reset (.group 1024)).wf = false := by decide

theorem test_wf_refuses_a_wide_reserved_aid : (Instr.noteOn (.reserved 1024) 440).wf = false := by
  decide

theorem test_wf_refuses_a_wide_frequency : (Instr.noteOn .broadcast 65536).wf = false := by decide

theorem test_wf_refuses_a_wide_index : (Instr.setLine 16384 true).wf = false := by decide

/-! ### Decoding: words written out from rules R92 and R98 (V-D1 to V-D18, rule R108) -/

theorem test_decode_note_on :
    decode (.command 0b0001_00_0000000011_0000000110111000) = .ok (.noteOn (.single 3) 440) ∧
    decode (.command 0b0001_01_0000000010_0000000001100100) = .ok (.noteOn (.group 2) 100) ∧
    decode (.command 0b0001_10_0000000000_0000100111000100) = .ok (.noteOn .broadcast 2500) ∧
    decode (.command 0b0001_11_0000000011_0000000110111000) = .ok (.noteOn (.reserved 3) 440) ∧
    decode (.command 0b0001_00_1111111111_1111111111111111) = .ok (.noteOn (.single 1023) 65535) := by
  decide

theorem test_decode_note_off :
    decode (.command 0b0010_00_0000000011_0000000000000000) = .ok (.noteOff (.single 3)) ∧
    decode (.command 0b0010_10_1111111111_0001001000110100) = .ok (.noteOff .broadcast) := by decide

theorem test_decode_reset :
    decode (.command 0b0011_00_0000000011_0000000000000000) = .ok (.reset (.single 3)) := by decide

theorem test_decode_unsupported :
    decode (.command 0x00000000) = .ok .unsupportedK0 ∧
    decode (.command 0x40000000) = .ok .unsupportedK4 ∧
    decode (.command 0x50000000) = .ok .unsupportedK5 ∧
    decode (.command 0x60000000) = .ok .unsupportedK6 ∧
    decode (.command 0x70000000) = .ok .unsupportedK7 ∧
    decode (.command 0x80000000) = .ok .unsupportedK8 ∧
    decode (.command 0x90000000) = .ok .unsupportedK9 ∧
    decode (.command 0xA0000000) = .ok .unsupportedK10 ∧
    decode (.command 0xB0000000) = .ok .unsupportedK11 ∧
    decode (.command 0xC0000000) = .ok .unsupportedK12 ∧
    decode (.command 0xD0000000) = .ok .unsupportedK13 ∧
    decode (.command 0xE0000000) = .ok .unsupportedK14 ∧
    decode (.command 0xFFFFFFFF) = .ok .unsupportedK15 := by decide

theorem test_decode_multiplexer :
    decode (.multiplexer 0b0_1_00000000011000) = .ok (.setLine 24 true) ∧
    decode (.multiplexer 0b0_0_00000000011000) = .ok (.setLine 24 false) ∧
    decode (.multiplexer 0b0_1_11111111111111) = .ok (.setLine 16383 true) ∧
    decode (.multiplexer 0x8000) = .ok .flush ∧ decode (.multiplexer 0xFFFF) = .ok .flush := by decide

theorem test_decode_strobes :
    decode (.timer 1) = .ok .tick ∧ decode (.reset 1) = .ok .init ∧
    decode (.timer 0) = .error (.strobeNotAsserted .timer) ∧
    decode (.reset 0) = .error (.strobeNotAsserted .reset) := by decide

theorem test_decode_table_words :
    decodeTableWord 32 0x100301B8 = some (.noteOn (.single 3) 440) ∧
    decodeTableWord 16 0x4018 = some (.setLine 24 true) ∧
    decodeTableWord 8 1 = some .tick ∧ decodeTableWord 24 0 = none := by decide

theorem test_encode_words :
    encode (.noteOn (.single 3) 440) = some (.command 0x100301B8) ∧
    encode (.noteOff .broadcast) = some (.command 0x28000000) ∧
    encode (.setLine 24 true) = some (.multiplexer 0x4018) ∧
    encode .flush = some (.multiplexer 0x8000) ∧
    encode (.shiftBit 0 true) = none ∧ encode .latch = none := by decide

/-! ### The frequency-to-period mapping (V-P) -/

theorem test_period_of_at_10000 :
    [0, 1, 3, 27, 400, 440, 441, 2000, 3333, 3334, 10000, 10001, 65535].map
        (periodOf (Config.withDefaults 10000 200 true))
      = [none, some 5000, some 1667, some 185, some 13, some 11, some 11, some 3, some 2, some 1,
         some 1, none, none] := by decide

theorem test_period_of_at_other_rates :
    [7, 8, 440, 65535].map (periodOf (Config.withDefaults 1000000 200 true))
      = [none, some 62500, some 1136, some 8] ∧
    [32768, 32769].map (periodOf (Config.withDefaults 4294967295 200 true)) = [none, some 65534] ∧
    [1, 3].map (periodOf (Config.withDefaults 3 200 true)) = [some 2, some 1] := by decide

/-! ### Command operations (V-C) -/

/-- V-C1: only TONE changes, the count is kept. -/
theorem test_note_on_retunes :
    (stepWord (playing Config.scenario) 32 0x10030370).map (·.drives[3]?)
      = some (some ⟨7, .rev, .active 6, 4⟩) := by decide

/-- V-C3 to V-C7: frequency 0 and 10001, drive 8, an absent group, AMODE 3. -/
theorem test_note_on_out_of_range :
    [0x10030000, 0x10032711, 0x100801B8, 0x140001B8, 0x1C0301B8].map
        (stepWord (playing Config.scenario) 32)
      = List.replicate 5 (some (playing Config.scenario)) := by decide

/-- V-C9 and V-C21. -/
theorem test_note_off_silences :
    (stepWord (playing Config.scenario) 32 0x20030000).map (·.drives[3]?)
      = some (some ⟨7, .rev, .silent, 4⟩) ∧
    stepWord (playing groupConfig) 32 0x24010000 = some (playing groupConfig) := by decide

/-- V-C12: the drive is re-homed, no line is written. -/
theorem test_reset_rehomes :
    (stepWord (playing Config.scenario) 32 0x30030000).map (fun t => (t.drives[3]?, t.bank, t.dirty))
      = some (some ⟨0, .fwd, .silent, 0⟩, (playing Config.scenario).bank, false) := by decide

/-- V-C16. -/
theorem test_unsupported_counts :
    (stepWord (playing Config.scenario) 32 0x40000000).map (fun t => (t.unsupCount, t.diag))
      = some (1, [.unsupported 4]) := by decide

/-- V-C17. -/
theorem test_unsupported_saturates :
    (stepWord { playing Config.scenario with unsupCount := 0xFFFFFFFF } 32 0).map
        (fun t => (t.unsupCount, t.diag))
      = some (0xFFFFFFFF, [.unsupported 0]) := by decide

/-- V-C19's label and its drives, with the range of drive 5 ending at 400. -/
theorem test_note_on_label_per_drive :
    commandOutcome (.noteOn .broadcast 440) (playing { Config.scenario with
        drives := Config.scenario.drives.set 5 { Config.defaultDrive 8 200 5 with freqMax := 400 } })
      = some (.outOfRange [.frequency 5 440]) := by decide

/-! ### TICK (V-T) -/

/-- V-T4 and V-T8: a step onto a boundary writes both lines and reverses. -/
theorem test_tick_reverses_at_a_boundary :
    (stepWord (oneDrive 3 ⟨2, .fwd, .active 2, 1⟩ false false) 8 1).map
        (fun t => (t.drives, t.bank.take 2, t.dirty, t.chain.map (·.out)))
      = some ([⟨3, .rev, .active 2, 0⟩], [true, true], false, [3]) ∧
    (stepWord (oneDrive 1 ⟨1, .rev, .active 1, 0⟩ true true) 8 1).map
        (fun t => (t.drives, t.bank.take 2, t.chain.map (·.out)))
      = some ([⟨0, .fwd, .active 1, 0⟩], [false, false], [0]) := by decide +kernel

/-- V-T14: the loop completed, the flush failed. -/
theorem test_tick_output_failure :
    (stepWord { oneDrive 3 ⟨1, .fwd, .active 2, 1⟩ false true with outOk := false } 8 1).map
        (fun t => (t.drives, t.bank.take 2, t.dirty, t.halted, t.chain.map (·.out)))
      = some ([⟨2, .fwd, .silent, 0⟩], [false, false], true, true, [1]) := by decide

/-! ### The multiplexer (V-M, V-F) -/

/-- V-M1 and V-M2: equal values mark dirty too. -/
theorem test_set_line_marks_dirty :
    (stepWord (playing Config.scenario) 16 0x4018).map
        (fun t => (t.lineAt 24, t.dirty, t.chain.map (·.out)))
      = some (true, true, [0x02000000]) ∧
    (stepWord (playing Config.scenario) 16 0x0005).map (fun t => (t.bank, t.dirty))
      = some ((playing Config.scenario).bank, true) := by decide

/-- V-M3. -/
theorem test_set_line_outside_the_bank :
    stepWord (playing Config.scenario) 16 0x4040 = some (playing Config.scenario) := by decide

/-- V-F1: lines 0, 1, 31, 32 and 63 at 1. -/
theorem test_flush_presents_the_bank :
    (stepWord { playing Config.scenario with
        bank := (List.range 64).map fun i => [0, 1, 31, 32, 63].contains i, pins := [] } 16 0x8000).map
        (fun t => (t.chain, t.pins.length, t.pins.take 6))
      = some ([⟨true, false, false, 0x8000000180000003, 0x8000000180000003⟩], 194,
          [.ser 0 true, .srclkRise 0, .srclkFall 0, .ser 0 false, .srclkRise 0, .srclkFall 0]) := by
  decide +kernel

/-- V-F4. -/
theorem test_flush_output_failure :
    (stepWord { playing Config.scenario with outOk := false, dirty := true } 16 0x8000).map
        (fun t => (t.halted, t.dirty, t.pins.length, t.drives[3]?))
      = some (true, true, 2, some ⟨7, .rev, .silent, 4⟩) := by decide

/-- V-F2: every stage moves one place on. -/
theorem test_shift_bit :
    (nextState (exec (.shiftBit 0 true) { playing Config.scenario with
        chain := [⟨false, false, false, 0xC000000000000001, 5⟩] })).map
        (fun t => t.chain.map fun g => (g.sr, g.out, g.srclk))
      = some [(0x8000000000000003, 5, false)] := by decide

/-- Rule R186: OUT takes SR whole. -/
theorem test_latch :
    (nextState (exec .latch { playing Config.scenario with
        chain := [⟨false, false, false, 6, 5⟩], pins := [] })).map
        (fun t => (t.chain.map (fun g => (g.sr, g.out, g.rclk)), t.pins))
      = some ([(6, 6, false)], [.rclkRise, .rclkFall]) := by decide

/-! ### INIT (rules R46, R240, R243) -/

theorem test_init :
    (nextState (exec .init { playing Config.scenario with halted := true, unsupCount := 7 })).map
        (fun t => (t.drives, t.dirty, t.halted, t.unsupCount, t.pins))
      = some (List.replicate 8 restingDrive, true, false, 0, []) := by decide

theorem test_init_refuses :
    stopped (exec .init (playing badConfig)) = some (.inr .badConfiguration) := by decide

/-! ### Witnesses: states and operands that meet the hypotheses of the statements -/

/-- The states the witnesses use are sound and their outputs are whole. -/
theorem witness_sound :
    (playing Config.scenario).Sound ∧ (playing Config.scenario).OutputsWhole ∧
    (oneDrive 3 ⟨2, .fwd, .active 2, 1⟩ false false).Sound := by
  and_intros <;> decide

theorem witness_UnsupportedKindsDecodeAndAreIgnored :
    (0x40000000 : CommandWord).extractLsb' 28 4 ≠ 1 ∧ (0x40000000 : CommandWord).extractLsb' 28 4 ≠ 2 ∧
    (0x40000000 : CommandWord).extractLsb' 28 4 ≠ 3 ∧ (playing Config.scenario).halted = false ∧
    (playing Config.scenario).unsupCount.toNat + 1 < 2 ^ 32 := by
  and_intros <;> decide

/-- Each clause: the four address forms and the three kinds. -/
theorem witness_CommandWordDecodesByField :
    (0x13FFFFFF : CommandWord).extractLsb' 26 2 = 0 ∧ (0x27FFFFFF : CommandWord).extractLsb' 26 2 = 1 ∧
    (0x38000000 : CommandWord).extractLsb' 26 2 = 2 ∧ (0x1C000000 : CommandWord).extractLsb' 26 2 = 3 ∧
    (0x13FFFFFF : CommandWord).extractLsb' 28 4 = 1 ∧ (0x27FFFFFF : CommandWord).extractLsb' 28 4 = 2 ∧
    (0x38000000 : CommandWord).extractLsb' 28 4 = 3 := by
  and_intros <;> decide

theorem witness_MuxWordDecodesByField :
    (0x7FFF : MuxWord).getLsbD 15 = false ∧ (0x8000 : MuxWord).getLsbD 15 = true := by
  and_intros <;> decide

theorem witness_EncodedOperationsDecodeBack :
    (Instr.noteOn (.single 1023) 65535).wf = true ∧
    (Instr.noteOn (.single 1023) 65535).port = some .command ∧
    (Instr.setLine 16383 true).wf = true ∧ (Instr.setLine 16383 true).port = some .multiplexer ∧
    Instr.tick.port = some .timer ∧ Instr.init.port = some .reset := by
  and_intros <;> decide

theorem witness_DecodedWordsReencode : decode (.command 0xFFFFFFFF) = .ok .unsupportedK15 := by decide

/-- Each clause: FREQ of NOTE_OFF, AID of a broadcast, everything but KIND, everything but MOP. -/
theorem witness_UnusedFieldsAreIgnored :
    ((0x20030000 : CommandWord).extractLsb' 28 4 = (0x2003FFFF : CommandWord).extractLsb' 28 4 ∧
      (0x20030000 : CommandWord).extractLsb' 28 4 = 2 ∧
      (0x20030000 : CommandWord).extractLsb' 16 12 = (0x2003FFFF : CommandWord).extractLsb' 16 12) ∧
    ((0x18000001 : CommandWord).extractLsb' 28 4 = (0x1BFF0001 : CommandWord).extractLsb' 28 4 ∧
      (0x18000001 : CommandWord).extractLsb' 26 2 = 2 ∧ (0x1BFF0001 : CommandWord).extractLsb' 26 2 = 2 ∧
      (0x18000001 : CommandWord).extractLsb' 0 16 = (0x1BFF0001 : CommandWord).extractLsb' 0 16) ∧
    ((0x40000000 : CommandWord).extractLsb' 28 4 = (0x4FFFFFFF : CommandWord).extractLsb' 28 4 ∧
      (0x40000000 : CommandWord).extractLsb' 28 4 ≠ 1 ∧
      (0x40000000 : CommandWord).extractLsb' 28 4 ≠ 2 ∧
      (0x40000000 : CommandWord).extractLsb' 28 4 ≠ 3) ∧
    ((0x8000 : MuxWord).getLsbD 15 = true ∧ (0xFFFF : MuxWord).getLsbD 15 = true) := by
  and_intros <;> decide

/-- Each clause at the ends of its range: drives 7 and 8 of 8, groups 1 and 2 of 2. -/
theorem witness_AddressesResolveToDrives :
    resolve groupConfig (.single 7) = some [7] ∧ resolve groupConfig (.single 8) = none ∧
    ConfigValid groupConfig ∧ groupConfig.groups[0]? = some [4, 1] ∧
    resolve groupConfig (.group 0) = some [1, 4] ∧ groupConfig.groups[1]? = some [] ∧
    groupConfig.groups.length ≤ 2 := by
  and_intros <;> decide

theorem witness_PeriodMappingLaws :
    periodOf Config.scenario 440 = some 11 ∧ periodOf Config.scenario 441 = some 11 ∧
    1 ≤ Config.scenario.periodMax ∧ Config.scenario.tickRate < 10001 := by
  and_intros <;> decide

/-- An accepted target, a rejected one (frequency 0 and one above the range), and a drive left out. -/
theorem witness_NoteOnRetunesAcceptedTargets :
    (playing Config.scenario).halted = false ∧
    resolve (playing Config.scenario).cfg (.single 3) = some [3] ∧
    (playing Config.scenario).cfg.drives[3]? = some (Config.defaultDrive 8 200 3) ∧
    (playing Config.scenario).drives[3]? = some ⟨7, .rev, .active 11, 4⟩ ∧
    (Config.defaultDrive 8 200 3).freqMin ≤ 1 ∧ 1 ≤ (Config.defaultDrive 8 200 3).freqMax ∧
    periodOf Config.scenario 1 = some 5000 ∧ 0 < (Config.defaultDrive 8 200 3).freqMin ∧
    (Config.defaultDrive 8 200 3).freqMax < 65536 ∧ periodOf Config.scenario 10001 = none ∧
    2 ∉ [3] := by
  and_intros <;> decide

theorem witness_NoteOffSilencesTargets :
    (playing Config.scenario).halted = false ∧
    resolve (playing Config.scenario).cfg .broadcast = some [0, 1, 2, 3, 4, 5, 6, 7] := by
  and_intros <;> decide

theorem witness_ResetRehomesTargets :
    (playing groupConfig).halted = false ∧
    resolve (playing groupConfig).cfg (.group 0) = some [1, 4] := by
  and_intros <;> decide

theorem witness_UnsupportedKindCountsAndLogs :
    Instr.unsupportedK15.unsupportedKind = some 15 ∧ (playing Config.scenario).halted = false ∧
    Instr.unsupportedK0.unsupportedKind = some 0 := by
  and_intros <;> decide

theorem witness_InvalidAddressIsIgnored :
    resolve (playing Config.scenario).cfg (.single 8) = none ∧
    resolve (playing Config.scenario).cfg (.group 0) = none ∧
    resolve (playing Config.scenario).cfg (.reserved 3) = none := by
  and_intros <;> decide

/-- Each clause: halted, Invalid, in range with one rejected drive, unsupported. -/
theorem witness_CommandOutcomeLabels :
    (Instr.noteOff .broadcast).context = .command ∧
    { playing Config.scenario with halted := true }.halted = true ∧
    (playing Config.scenario).halted = false ∧
    resolve (playing Config.scenario).cfg (.single 8) = none ∧
    resolve (playing Config.scenario).cfg (.single 7) = some [7] ∧
    acceptedPeriod (playing Config.scenario).cfg 7 0 = none ∧
    commandOutcome (.noteOn (.single 7) 0) (playing Config.scenario)
      = some (.outOfRange [.frequency 7 0]) ∧
    Instr.unsupportedK4.unsupportedKind = some 4 := by
  and_intros <;> decide

theorem witness_CommandsTouchOnlyTheDriveTable :
    (Instr.noteOn .broadcast 440).context = .command ∧
    (Instr.noteOn .broadcast 440).unsupportedKind = none ∧ Instr.unsupportedK4.context = .command ∧
    Instr.unsupportedK4.unsupportedKind ≠ none := by
  and_intros <;> decide

theorem witness_HaltedBlockDoesNothing :
    { playing Config.scenario with halted := true }.halted = true ∧
    (Instr.reset .broadcast).context = .command := by
  and_intros <;> decide

/-- TICK's statements: a silent drive, one that counts, one that steps at the boundary. -/
theorem witness_TickAdvancesEachDrive :
    (playing Config.scenario).Sound ∧ (playing Config.scenario).halted = false ∧
    (playing Config.scenario).outOk = true ∧
    (playing Config.scenario).cfg.drives[3]? = some (Config.defaultDrive 8 200 3) ∧
    (playing Config.scenario).drives[3]? = some ⟨7, .rev, .active 11, 4⟩ ∧ 4 + 1 < 11 ∧
    (playing Config.scenario).drives[0]? = some restingDrive := by
  and_intros <;> decide

theorem witness_DirectionFlipsAtTheBoundary :
    (oneDrive 3 ⟨2, .fwd, .active 2, 1⟩ false false).Sound ∧
    (oneDrive 3 ⟨2, .fwd, .active 2, 1⟩ false false).halted = false ∧
    (oneDrive 3 ⟨2, .fwd, .active 2, 1⟩ false false).cfg.drives[0]? = some (Config.defaultDrive 8 3 0) ∧
    (oneDrive 3 ⟨2, .fwd, .active 2, 1⟩ false false).drives[0]? = some ⟨2, .fwd, .active 2, 1⟩ ∧
    2 ≤ 1 + 1 ∧ (oneDrive 1 ⟨1, .rev, .active 1, 0⟩ true true).Sound ∧
    (Config.defaultDrive 8 1 0).maxPos = 1 := by
  and_intros <;> decide

theorem witness_TickWritesStepAndDirectionLines :
    (oneDrive 3 ⟨2, .fwd, .active 2, 1⟩ false false).Sound ∧
    (oneDrive 3 ⟨2, .fwd, .active 2, 1⟩ false false).halted = false ∧
    2 ∉ (oneDrive 3 ⟨2, .fwd, .active 2, 1⟩ false false).cfg.lineTable ∧
    (oneDrive 3 ⟨2, .fwd, .active 2, 0⟩ false false).Sound ∧ 0 + 1 < 2 := by
  and_intros <;> decide

/-- Both clauses: something to flush (DIRTY from outside), and nothing. -/
theorem witness_TickFlushesAtMostOnce :
    { playing Config.scenario with dirty := true }.Sound ∧
    { playing Config.scenario with dirty := true }.dirty = true ∧
    (playing Config.scenario).Sound ∧ (playing Config.scenario).halted = false ∧
    (playing Config.scenario).outOk = true ∧ (playing Config.scenario).dirty = false ∧
    (playing Config.scenario).tick.bank = (playing Config.scenario).bank := by
  and_intros <;> decide

/-- A block with one active drive, and one with every drive silent. -/
theorem witness_QuietTickMovesCountersOnly :
    (oneDrive 3 ⟨1, .fwd, .active 2, 0⟩ false true).Sound ∧
    (oneDrive 3 ⟨1, .fwd, .active 2, 0⟩ false true).halted = false ∧
    (oneDrive 3 ⟨1, .fwd, .active 2, 0⟩ false true).dirty = false ∧
    (oneDrive 3 ⟨1, .fwd, .active 2, 0⟩ false true).cfg.drives = [Config.defaultDrive 8 3 0] ∧
    (oneDrive 3 ⟨1, .fwd, .active 2, 0⟩ false true).drives = [⟨1, .fwd, .active 2, 0⟩] ∧
    0 + 1 < 2 ∧
    (oneDrive 3 ⟨1, .fwd, .active 2, 0⟩ false true).lineAt 1
      = dirLevel (oneDrive 3 ⟨1, .fwd, .active 2, 0⟩ false true).cfg .fwd ∧
    (oneDrive 3 restingDrive false false).Sound ∧
    ∀ dr ∈ (oneDrive 3 restingDrive false false).drives, dr.tone = .silent := by
  and_intros <;> decide

/-- Both outcomes: the flush fails, and there is nothing to flush. -/
theorem witness_FailingTickHaltsPrecisely :
    { oneDrive 3 ⟨1, .fwd, .active 2, 1⟩ false true with outOk := false }.Sound ∧
    { oneDrive 3 ⟨1, .fwd, .active 2, 1⟩ false true with outOk := false }.halted = false ∧
    { oneDrive 3 ⟨1, .fwd, .active 2, 1⟩ false true with outOk := false }.outOk = false ∧
    { oneDrive 3 ⟨1, .fwd, .active 2, 1⟩ false true with outOk := false }.tick.halted = true ∧
    { oneDrive 3 ⟨1, .fwd, .active 2, 0⟩ false true with outOk := false }.Sound ∧
    { oneDrive 3 ⟨1, .fwd, .active 2, 0⟩ false true with outOk := false }.tick.halted = false := by
  and_intros <;> decide

theorem witness_TickLeavesOutputsInStep :
    (oneDrive 3 ⟨2, .fwd, .active 2, 1⟩ false false).Sound ∧
    (oneDrive 3 ⟨2, .fwd, .active 2, 1⟩ false false).OutputsWhole ∧
    (oneDrive 3 ⟨2, .fwd, .active 2, 1⟩ false false).tick.halted = false ∧
    PinEvent.rclkRise ∈ (oneDrive 3 ⟨2, .fwd, .active 2, 1⟩ false false).tick.pins := by
  and_intros <;> decide +kernel

theorem witness_TickOrderIsUnobservable :
    (playing Config.scenario).Sound ∧
    [7, 6, 5, 4, 3, 2, 1, 0].Perm (List.range (playing Config.scenario).cfg.nDrives) := by
  and_intros <;> decide

/-- Two states that differ in another drive. -/
theorem witness_TickTreatsEachDriveAlone :
    (playing Config.scenario).Sound ∧
    { playing Config.scenario with
      drives := (playing Config.scenario).drives.set 0 ⟨0, .fwd, .active 1, 0⟩ }.Sound ∧
    (playing Config.scenario).halted = false ∧ (playing Config.scenario).outOk = true ∧
    (playing Config.scenario).drives[3]?
      = ((playing Config.scenario).drives.set 0 ⟨0, .fwd, .active 1, 0⟩)[3]? ∧
    (playing Config.scenario).cfg.drives[3]? = some (Config.defaultDrive 8 200 3) ∧
    (playing Config.scenario).lineAt 24
      = { playing Config.scenario with
          drives := (playing Config.scenario).drives.set 0 ⟨0, .fwd, .active 1, 0⟩ }.lineAt 24 ∧
    (nextState (exec .tick (playing Config.scenario))).isSome ∧
    (nextState (exec .tick { playing Config.scenario with
      drives := (playing Config.scenario).drives.set 0 ⟨0, .fwd, .active 1, 0⟩ })).isSome := by
  and_intros <;> decide

theorem witness_PlayedToneIsATriangleWave :
    (oneDrive 3 ⟨0, .fwd, .active 2, 0⟩ false false).Sound ∧
    (oneDrive 3 ⟨0, .fwd, .active 2, 0⟩ false false).halted = false ∧
    (oneDrive 3 ⟨0, .fwd, .active 2, 0⟩ false false).outOk = true ∧
    (oneDrive 3 ⟨0, .fwd, .active 2, 0⟩ false false).cfg.drives[0]?
      = some (Config.defaultDrive 8 3 0) ∧
    (oneDrive 3 ⟨0, .fwd, .active 2, 0⟩ false false).drives[0]? = some ⟨0, .fwd, .active 2, 0⟩ := by
  and_intros <;> decide

/-- The triangle law's table of spec/95 section 2.4. -/
theorem test_triangle_law :
    [0, 1, 199, 200, 201, 399, 400, 401, 600, 800].map
        (fun n => (trianglePos 200 n, triangleDir 200 n))
      = [(0, .fwd), (1, .fwd), (199, .fwd), (200, .rev), (199, .rev), (1, .rev), (0, .fwd), (1, .fwd),
         (200, .rev), (0, .fwd)] := by decide

/-- A count below the period and one above it (V-T9). -/
theorem witness_FirstStepComesWithinThePeriod :
    (oneDrive 200 ⟨0, .fwd, .active 5, 30⟩ false false).Sound ∧
    (oneDrive 200 ⟨0, .fwd, .active 5, 30⟩ false false).halted = false ∧
    (oneDrive 200 ⟨0, .fwd, .active 5, 30⟩ false false).outOk = true ∧
    (oneDrive 200 ⟨0, .fwd, .active 5, 30⟩ false false).cfg.drives[0]?
      = some (Config.defaultDrive 8 200 0) ∧
    (oneDrive 200 ⟨0, .fwd, .active 5, 30⟩ false false).drives[0]? = some ⟨0, .fwd, .active 5, 30⟩ ∧
    0 < max 1 (5 - 30) := by
  and_intros <;> decide

theorem witness_SilentDriveStaysStill :
    (playing Config.scenario).Sound ∧
    (playing Config.scenario).cfg.drives[0]? = some (Config.defaultDrive 8 200 0) ∧
    (playing Config.scenario).drives[0]? = some restingDrive ∧ restingDrive.tone = .silent := by
  and_intros <;> decide

/-- The last line of the bank, and the first index outside it. -/
theorem witness_SetLineWritesThePendingFrame :
    (playing Config.scenario).Shaped ∧ 63 < (playing Config.scenario).cfg.nLines ∧
    (playing Config.scenario).cfg.nLines ≤ 64 := by
  and_intros <;> decide

theorem witness_DirtyMarksTheBankUntilFlushed :
    63 < (playing Config.scenario).cfg.nLines ∧ (playing Config.scenario).outOk = true ∧
    { playing Config.scenario with dirty := true }.dirty = true ∧
    nextState (exec .latch { playing Config.scenario with dirty := true })
      = some { playing Config.scenario with dirty := true }.latch := by
  and_intros <;> decide

/-- FLUSH's statements: the path available and gone; segment 0 of the chain. -/
theorem witness_FlushPresentsTheBank :
    (playing Config.scenario).Shaped ∧ (playing Config.scenario).outOk = true ∧
    (playing Config.scenario).flush.chain[0]? = some ⟨false, false, false, 0x02000000, 0x02000000⟩ := by
  and_intros <;> decide +kernel

theorem witness_FlushPinSequence :
    (playing Config.scenario).Shaped ∧ (playing Config.scenario).outOk = true := by
  and_intros <;> decide

theorem witness_OutputFailureHaltsTheBlock :
    { playing Config.scenario with outOk := false }.outOk = false := by decide

/-- Inside the chain and outside it. -/
theorem witness_ShiftBit :
    (playing Config.scenario).Shaped ∧ 0 < (playing Config.scenario).cfg.nSeg ∧
    (playing Config.scenario).cfg.nSeg ≤ 1 := by
  and_intros <;> decide

theorem witness_LatchPresentsTheShiftStage :
    (playing Config.scenario).chain[0]? = some ⟨false, false, false, 0x02000000, 0x02000000⟩ := by decide

/-- A step that flushes; every statement about a step of a sound, whole state is met by it. -/
theorem witness_steps :
    { playing Config.scenario with inputs := [.word (.multiplexer 0x8000)] }.Sound ∧
    { playing Config.scenario with inputs := [.word (.multiplexer 0x8000)] }.OutputsWhole ∧
    nextState (step { playing Config.scenario with inputs := [.word (.multiplexer 0x8000)] })
      = some (playing Config.scenario).flush := by
  and_intros <;> decide +kernel

/-- The pin events that step adds hold a latch pulse. -/
theorem witness_LatchFollowsTheWholeFrame :
    PinEvent.rclkRise ∈ (playing Config.scenario).flush.pins.drop 2 := by decide +kernel

theorem witness_InitSetsTheInitialState :
    ConfigValid (playing Config.scenario).cfg ∧ ConfigValid groupConfig := by
  and_intros <;> decide

theorem witness_InitRefusesABadConfiguration : ¬ ConfigValid (playing badConfig).cfg := by decide

theorem witness_ConfigurationNeverChanges :
    (playing Config.scenario).Shaped ∧ (nextState (exec .tick (playing Config.scenario))).isSome := by
  and_intros <;> decide

/-- Each flag's change: set by its cause, cleared by its cause. -/
theorem witness_FlagsChangeOnlyByTheirRules :
    { playing Config.scenario with outOk := false }.halted = false ∧
    { playing Config.scenario with outOk := false }.flush.halted = true ∧
    (nextState (exec .init { playing Config.scenario with halted := true })).map (·.halted)
      = some false ∧
    ((playing Config.scenario).setLine 63 true).dirty = true ∧
    { playing Config.scenario with dirty := true }.flush.dirty = false ∧
    (stepWord (playing Config.scenario) 32 0x180009C4).map (fun t => (t.drives.map Drive.silent))
      = some (List.replicate 8 false) ∧
    (stepWord (playing Config.scenario) 32 0x28000000).map (fun t => (t.drives.map Drive.silent))
      = some (List.replicate 8 true) := by
  and_intros <;> decide

theorem witness_EachOperationWritesOnlyItsOwnFields :
    (nextState (exec (.noteOn .broadcast 440) (playing Config.scenario))).isSome ∧
    Instr.unsupportedK0.unsupportedKind ≠ none ∧ (playing Config.scenario).outOk = true ∧
    ((playing Config.scenario).setLine 0 true).bank ≠ (playing Config.scenario).bank := by
  and_intros <;> decide

theorem witness_DiagnosticsNeverAffectControl :
    (nextState (exec .tick (playing Config.scenario))).isSome ∧
    stopped (exec (.shiftBit 1 true) (playing Config.scenario)) = some (.inl .noSuchSegment) ∧
    stopped (exec .init (playing badConfig)) = some (.inr .badConfiguration) := by
  and_intros <;> decide

theorem witness_StepRunsTheDecodedOperation :
    { playing Config.scenario with inputs := [.word (.timer 1)] }.inputs = [.word (.timer 1)] ∧
    decode (.timer 1) = .ok .tick ∧ decodeTableWord 32 0x30030000 = some (.reset (.single 3)) := by
  and_intros <;> decide

theorem witness_StepsWithoutAnOperation :
    { playing Config.scenario with inputs := [.outOk false] }.inputs = [.outOk false] ∧
    { playing Config.scenario with inputs := [.word (.reset 0)] }.inputs = [.word (.reset 0)] ∧
    { playing Config.scenario with inputs := [.decodeError .truncated true] }.inputs
      = [.decodeError .truncated true] ∧
    (playing Config.scenario).inputs = [] := by
  and_intros <;> decide

theorem witness_ResetStateIsSound : ConfigValid Config.scenario := by decide

end Sys2Proof.Tests
end

-- ==== Proofs: the state (spec/10_state.md) ====
section
/-! What every operation and every step keeps of the state's shape (rule R44), and what DIRTY records
(rule R33). -/

namespace Sys2Proof.Machine

/-! ### The configuration and the sizes of the tables -/

/-- Same configuration and tables of the same sizes. -/
structure State.SameSizes (s t : State) : Prop where
  cfg : t.cfg = s.cfg
  drives : t.drives.length = s.drives.length
  bank : t.bank.length = s.bank.length
  chain : t.chain.length = s.chain.length

theorem State.SameSizes.refl (s : State) : s.SameSizes s := ⟨rfl, rfl, rfl, rfl⟩

theorem State.SameSizes.trans {s t u : State} (h : s.SameSizes t) (h' : t.SameSizes u) :
    s.SameSizes u :=
  ⟨h'.cfg.trans h.cfg, h'.drives.trans h.drives, h'.bank.trans h.bank, h'.chain.trans h.chain⟩

theorem State.SameSizes.shaped {s t : State} (h : s.SameSizes t) (hs : s.Shaped) : t.Shaped := by
  obtain ⟨hd, hb, hc⟩ := hs
  rw [State.Shaped, h.cfg]
  exact ⟨h.drives.trans hd, h.bank.trans hb, h.chain.trans hc⟩

theorem State.addressed_sameSizes (s : State) (a : Addr) (f : Nat → Drive → Drive) :
    s.SameSizes (s.addressed a f) := by
  rcases s.addressed_cases a f with ⟨h, -⟩ | ⟨-, ds, -, h⟩
  · rw [h]; exact .refl s
  · rw [h]; exact ⟨rfl, State.updateDrives_length s ds f, rfl, rfl⟩

theorem State.unsupported_sameSizes (s : State) (kind : Nat) : s.SameSizes (s.unsupported kind) := by
  rw [State.unsupported_frame]; exact ⟨rfl, rfl, rfl, rfl⟩

theorem State.setLine_sameSizes (s : State) (i : Nat) (v : Bool) : s.SameSizes (s.setLine i v) := by
  constructor <;> simp

theorem State.shiftBit_sameSizes (s : State) (seg : Nat) (v : Bool) :
    s.SameSizes (s.shiftBit seg v) := by
  rw [State.shiftBit_eq]; exact ⟨rfl, rfl, rfl, List.length_modify ..⟩

theorem State.latch_sameSizes (s : State) : s.SameSizes s.latch := by
  rw [State.latch_eq]; exact ⟨rfl, rfl, rfl, List.length_map _⟩

theorem State.shiftAll_sameSizes (s : State) : s.SameSizes s.shiftAll := by
  rw [State.shiftAll, State.shiftSegments_eq _ List.nodup_range]
  exact ⟨rfl, rfl, rfl, List.length_mapIdx⟩

theorem State.raiseOutputUnavailable_sameSizes (s : State) :
    s.SameSizes s.raiseOutputUnavailable := by
  rw [State.raiseOutputUnavailable_eq]; exact ⟨rfl, List.length_map _, rfl, rfl⟩

/-- Both outcomes of FLUSH (rules R183, R187). -/
theorem State.flush_sameSizes (s : State) : s.SameSizes s.flush := by
  unfold State.flush
  split
  · have hl := s.shiftAll_sameSizes.trans s.shiftAll.latch_sameSizes
    exact ⟨hl.cfg, hl.drives, hl.bank, hl.chain⟩
  · exact s.raiseOutputUnavailable_sameSizes

theorem State.tickDrives_sameSizes (s : State) (ds : List Nat) : s.SameSizes (s.tickDrives ds) := by
  constructor <;> simp

theorem State.tick_sameSizes (s : State) : s.SameSizes s.tick := by
  cases hh : s.halted with
  | true => rw [State.tick_of_halted hh]; exact .refl s
  | false =>
    rw [State.tick_of_running hh]
    have hl := s.tickDrives_sameSizes (List.range s.cfg.nDrives)
    split
    · exact hl.trans (State.flush_sameSizes _)
    · exact hl

/-- INIT takes every size from the configuration; the bank's is a constraint of rule R8. -/
theorem State.initialise_shaped {s : State} (hv : ConfigValid s.cfg) : s.initialise.Shaped := by
  obtain ⟨-, -, -, -, -, -, -, -, -, -, -, -, hb⟩ := hv
  exact ⟨List.length_replicate, hb, by simp [State.initialise, State.afterInit]⟩

/-- Every operation but INIT keeps the size of every table as it is; INIT sets them. -/
theorem exec_sameSizes {i : Instr} {s t : State} (h : exec i s = .next t) :
    s.SameSizes t ∨ (ConfigValid s.cfg ∧ t = s.initialise) := by
  rcases exec_cases h with ⟨a, f, -, rfl⟩ | ⟨a, -, rfl⟩ | ⟨a, -, rfl⟩ | ⟨kind, -, rfl⟩ |
    ⟨k, v, -, rfl⟩ | ⟨-, rfl⟩ | ⟨-, rfl⟩ | ⟨-, hv, rfl⟩ | ⟨k, v, -, -, rfl⟩ | ⟨-, rfl⟩
  · exact .inl (s.addressed_sameSizes a _)
  · exact .inl (s.addressed_sameSizes a _)
  · exact .inl (s.addressed_sameSizes a _)
  · exact .inl (s.unsupported_sameSizes kind)
  · exact .inl (s.setLine_sameSizes k v)
  · exact .inl s.flush_sameSizes
  · exact .inl s.tick_sameSizes
  · exact .inr ⟨hv, rfl⟩
  · exact .inl (s.shiftBit_sameSizes k v)
  · exact .inl s.latch_sameSizes

theorem exec_cfg_shaped {i : Instr} {s t : State} (h : exec i s = .next t) :
    t.cfg = s.cfg ∧ (s.Shaped → t.Shaped) := by
  rcases exec_sameSizes h with hs | ⟨hv, rfl⟩
  · exact ⟨hs.cfg, hs.shaped⟩
  · exact ⟨rfl, fun _ => State.initialise_shaped hv⟩

theorem State.withInputs_sameSizes (s : State) (rest : List Input) :
    s.SameSizes (s.withInputs rest) := ⟨rfl, rfl, rfl, rfl⟩

theorem State.frameDropped_sameSizes (s : State) (e : DecodeError) (logged : Bool) :
    s.SameSizes (s.frameDropped e logged) := by
  rw [State.frameDropped_frame]; exact ⟨rfl, rfl, rfl, rfl⟩

theorem step_cfg_shaped {s t : State} (h : step s = .next t) :
    t.cfg = s.cfg ∧ (s.Shaped → t.Shaped) := by
  have of_sameSizes {u : State} (hu : s.SameSizes u) : u.cfg = s.cfg ∧ (s.Shaped → u.Shaped) :=
    ⟨hu.cfg, hu.shaped⟩
  rcases step_cases h with ⟨-, rfl⟩ | ⟨level, rest, -, rfl⟩ | ⟨e, logged, rest, -, rfl⟩ |
    ⟨w, rest, -, rfl⟩ | ⟨w, rest, i, -, -, hx⟩
  · exact of_sameSizes (.refl t)
  · exact of_sameSizes ⟨rfl, rfl, rfl, rfl⟩
  · exact of_sameSizes ((s.withInputs_sameSizes rest).trans (State.frameDropped_sameSizes _ e logged))
  · exact of_sameSizes (s.withInputs_sameSizes rest)
  · obtain ⟨hcfg, hshaped⟩ := exec_cfg_shaped hx
    exact ⟨hcfg, fun hs => hshaped ((s.withInputs_sameSizes rest).shaped hs)⟩

/-- Settles O44: the operations by `exec_cases`, the other inputs of a step by `step_cases`. -/
theorem configurationNeverChanges : Obligations.ConfigurationNeverChanges :=
  ⟨fun _ _ _ => exec_cfg_shaped, fun _ _ => step_cfg_shaped⟩

/-! ### DIRTY -/

theorem State.addressed_dirty (s : State) (a : Addr) (f : Nat → Drive → Drive) :
    (s.addressed a f).dirty = s.dirty := by
  rw [State.addressed_frame]

theorem State.unsupported_dirty (s : State) (kind : Nat) : (s.unsupported kind).dirty = s.dirty := by
  rw [State.unsupported_frame]

theorem State.setLine_dirty_mono {s : State} (i : Nat) (v : Bool) (h : s.dirty = true) :
    (s.setLine i v).dirty = true := by
  rw [State.setLine_dirty, h, Bool.or_true]

theorem State.flush_clears_dirty {s : State} (ho : s.outOk = true) : s.flush.dirty = false := by
  rw [State.flush_frame ho]

/-- A FLUSH that finds the output path gone leaves DIRTY (rules R187, R218). -/
theorem State.flush_keeps_dirty {s : State} (ho : s.outOk = false) : s.flush.dirty = s.dirty := by
  rw [State.flush_of_not_outOk ho, State.raiseOutputUnavailable_eq]

/-- Neither the halt, nor the drive loop, nor a FLUSH that fails clears DIRTY. -/
theorem State.tick_keeps_dirty {s : State} (ho : s.outOk = false) (h : s.dirty = true) :
    s.tick.dirty = true := by
  cases hh : s.halted with
  | true => rw [State.tick_of_halted hh]; exact h
  | false =>
    have hl := State.tickDrives_dirty_mono (List.range s.cfg.nDrives) h
    rw [State.tick_of_running hh, if_pos hl, State.flush_keeps_dirty (by simpa using ho)]
    exact hl

/-- What can clean a dirty bank: a FLUSH or TICK with the output path available, and INIT (rule R33). -/
theorem exec_dirty_mono {i : Instr} {s t : State} (hd : s.dirty = true) (h : exec i s = .next t) :
    t.dirty = true ∨ i = .init ∨ (s.outOk = true ∧ (i = .flush ∨ i = .tick)) := by
  rcases exec_cases h with ⟨a, f, -, rfl⟩ | ⟨a, -, rfl⟩ | ⟨a, -, rfl⟩ | ⟨kind, -, rfl⟩ |
    ⟨k, v, -, rfl⟩ | ⟨hi, rfl⟩ | ⟨hi, rfl⟩ | ⟨hi, -, -⟩ | ⟨k, v, -, -, rfl⟩ | ⟨-, rfl⟩
  · exact .inl ((s.addressed_dirty a _).trans hd)
  · exact .inl ((s.addressed_dirty a _).trans hd)
  · exact .inl ((s.addressed_dirty a _).trans hd)
  · exact .inl ((s.unsupported_dirty kind).trans hd)
  · exact .inl (State.setLine_dirty_mono k v hd)
  · cases ho : s.outOk with
    | true => exact .inr (.inr ⟨rfl, .inl hi⟩)
    | false => exact .inl ((State.flush_keeps_dirty ho).trans hd)
  · cases ho : s.outOk with
    | true => exact .inr (.inr ⟨rfl, .inr hi⟩)
    | false => exact .inl (State.tick_keeps_dirty ho hd)
  · exact .inr (.inl hi)
  · left; rw [State.shiftBit_eq]; exact hd
  · left; rw [State.latch_eq]; exact hd

/-- Settles O33: SET_LINE by its dirty rule, FLUSH by its frame, the rest by `exec_cases`. -/
theorem dirtyMarksTheBankUntilFlushed : Obligations.DirtyMarksTheBankUntilFlushed := by
  refine ⟨fun s i v hi => ⟨s.setLine i v, rfl, ?_⟩,
    fun s ho => ⟨s.flush, rfl, State.flush_clears_dirty ho⟩, fun _ _ _ => exec_dirty_mono⟩
  simp [State.setLine_dirty, hi]

end Sys2Proof.Machine
end

-- ==== Proofs: the encoding (spec/30_encoding.md) ====
section
/-! Command words whose KIND names no operation of its own (rule R102), and what their operation does
(rule R125). -/

namespace Sys2Proof

/-- The fields of rule R12 are the bit slices the statements write. -/
theorem field_eq_extractLsb' {n : Nat} (w : BitVec n) (hi lo : Nat) :
    field w hi lo = (w.extractLsb' lo (hi + 1 - lo)).toNat := by
  rw [field, BitVec.extractLsb'_toNat, Nat.shiftRight_eq_div_pow]

/-- The last row of `decode_CW` (rule R97). -/
theorem decodeCommand_of_other_kind {w : CommandWord} (h1 : field w 31 28 ≠ 1)
    (h2 : field w 31 28 ≠ 2) (h3 : field w 31 28 ≠ 3) :
    decodeCommand w = unsupportedOfKind (field w 31 28) := by
  unfold decodeCommand
  split
  · contradiction
  · contradiction
  · contradiction
  · rfl

/-- A word whose KIND is not 1, 2 or 3 is no decoding error: its operation carries that KIND (rule R102). -/
theorem decode_command_of_other_kind {w : CommandWord} (h1 : w.extractLsb' 28 4 ≠ 1)
    (h2 : w.extractLsb' 28 4 ≠ 2) (h3 : w.extractLsb' 28 4 ≠ 3) :
    ∃ i, decode (.command w) = .ok i ∧ i.unsupportedKind = some (w.extractLsb' 28 4).toNat := by
  have hkind : field w 31 28 = (w.extractLsb' 28 4).toNat := field_eq_extractLsb' w 31 28
  rw [BitVec.toNat_ne, ← hkind] at h1 h2 h3
  rw [← hkind]
  exact ⟨_, congrArg Except.ok (decodeCommand_of_other_kind h1 h2 h3),
    unsupportedOfKind_kind (field_lt w 31 28) h1 h2 h3⟩

end Sys2Proof

namespace Sys2Proof.Machine

/-- The 13 constructors of UNSUPPORTED have one meaning (rule R125). -/
theorem exec_of_unsupportedKind {i : Instr} {kind : Nat} (hi : i.unsupportedKind = some kind)
    (s : State) : exec i s = .next (s.unsupported kind) := by
  cases i with
  | noteOn | noteOff | reset | setLine | flush | tick | init | shiftBit | latch => cases hi
  | unsupportedK0 | unsupportedK4 | unsupportedK5 | unsupportedK6 | unsupportedK7 | unsupportedK8
  | unsupportedK9 | unsupportedK10 | unsupportedK11 | unsupportedK12 | unsupportedK13
  | unsupportedK14 | unsupportedK15 => cases hi; rfl

/-- UNSUPPORTED in a running block, written out (rule R125). -/
theorem exec_unsupportedKind_of_running {i : Instr} {kind : Nat} {s : State}
    (hi : i.unsupportedKind = some kind) (hh : s.halted = false) :
    exec i s
      = .next { s with unsupCount := satIncr s.unsupCount, diag := s.diag ++ [.unsupported kind] } := by
  rw [exec_of_unsupportedKind hi, State.unsupported_of_running kind hh]

/-- Below its greatest value UNSUP_COUNT does not saturate (rule R36). -/
theorem satIncr_toNat_of_lt {n : BitVec 32} (h : n.toNat + 1 < 2 ^ 32) :
    (satIncr n).toNat = n.toNat + 1 := by
  rw [satIncr_toNat, Nat.min_eq_left (Nat.le_sub_one_of_lt h)]

/-- Settles O3: the decoder's last row gives the operation, and its meaning in a running block the rest. -/
theorem unsupportedKindsDecodeAndAreIgnored : Obligations.UnsupportedKindsDecodeAndAreIgnored := by
  intro w h1 h2 h3
  obtain ⟨i, hdecode, hkind⟩ := decode_command_of_other_kind h1 h2 h3
  exact ⟨i, hdecode, hkind, fun s hh =>
    ⟨_, exec_unsupportedKind_of_running hkind hh, rfl, satIncr_toNat_of_lt, rfl⟩⟩

end Sys2Proof.Machine
end

-- ==== Proofs: the TICK operation (spec/41_scheduler_tick.md) ====
section
/-! What a whole TICK makes of one drive's record, and the boundary reversal of a step event (rule R154). -/

namespace Sys2Proof.Machine

/-! ### One drive's record through a TICK -/

/-- Either outcome of FLUSH writes at most TONE of a drive's record (rules R183, R218). -/
theorem State.flush_drive {s : State} {d : Nat} {dr : Drive} (hd : s.drives[d]? = some dr) :
    ∃ tone, s.flush.drives[d]? = some { dr with tone := tone } := by
  cases ho : s.outOk with
  | true => exact ⟨dr.tone, by rw [State.flush_frame ho]; exact hd⟩
  | false =>
    refine ⟨.silent, ?_⟩
    rw [State.flush_of_not_outOk ho, State.raiseOutputUnavailable_eq, List.getElem?_map, hd]
    rfl

/-- A running block's TICK ticks every drive once; beyond that only TONE can differ, silenced by a FLUSH
that fails (rules R151, R218). -/
theorem State.tick_drive {s : State} (hh : s.halted = false) {d : Nat} {dc : DriveConfig} {dr : Drive}
    (hc : s.cfg.drives[d]? = some dc) (hd : s.drives[d]? = some dr) :
    ∃ tone, s.tick.drives[d]? = some { dr.ticked dc.maxPos with tone := tone } := by
  have hmem : d ∈ List.range s.cfg.nDrives :=
    List.mem_range.2 (List.getElem?_eq_some_iff.1 hc).1
  have hlooped : (s.tickDrives (List.range s.cfg.nDrives)).drives[d]?
      = some (dr.ticked dc.maxPos) := by
    rw [State.tickDrives_drive List.nodup_range hmem hc, hd, Option.map_some]
  rw [State.tick_of_running hh]
  split
  · exact State.flush_drive hlooped
  · exact ⟨_, hlooped⟩

/-! ### The boundary reversal -/

theorem flipDir_ne (dir : Dir) : flipDir dir ≠ dir := by
  cases dir <;> decide

/-- A step event flips the direction exactly when it arrives at a boundary (rule R154). -/
theorem Drive.stepEvent_dir_ne_iff (m : Nat) (dr : Drive) :
    (dr.stepEvent m).dir ≠ dr.dir ↔ (dr.stepEvent m).pos = 0 ∨ (dr.stepEvent m).pos = m := by
  simp only [Drive.stepEvent]
  split
  next hb => exact iff_of_true (flipDir_ne dr.dir) hb
  next hb => exact iff_of_false (not_not_intro rfl) hb

/-- With a maximum of 1 both places are boundaries, and a sound drive moves from each to the other. -/
theorem Drive.stepEvent_pos_of_maxPos_one {c : Config} {dc : DriveConfig} {dr : Drive}
    (h : DriveSound c dc dr) (hm : dc.maxPos = 1) :
    (dr.stepEvent dc.maxPos).pos = 0 ∨ (dr.stepEvent dc.maxPos).pos = dc.maxPos := by
  obtain ⟨hle, hfwd, hrev, -, -⟩ := h
  rw [hm] at hle hrev ⊢
  rcases Nat.le_one_iff_eq_zero_or_eq_one.1 hle with hpos | hpos
  · right; simp [Drive.stepEvent, Drive.moved, hfwd hpos, hpos]
  · left; simp [Drive.stepEvent, Drive.moved, hrev hpos, hpos]

theorem Drive.steps_eq_false_iff (dr : Drive) :
    dr.steps = false ↔ dr.tone = .silent ∨ ∃ p, dr.tone = .active p ∧ dr.cnt + 1 < p := by
  cases ht : dr.tone with
  | silent => simp [Drive.steps, ht]
  | active p => simp [← Bool.not_eq_true, Drive.steps_iff ht]

/-- Settles O21: TICK ticks the drive's record, by its step event where there is one. -/
theorem directionFlipsAtTheBoundary : Obligations.DirectionFlipsAtTheBoundary := by
  intro s hsound hh
  obtain ⟨-, -, hdrives, -, -⟩ := hsound
  refine ⟨s.tick, rfl, fun d dc dr hc hd => ?_⟩
  have hdr : DriveSound s.cfg dc dr :=
    hdrives d (List.getElem?_eq_some_iff.1 hc).1 dc hc dr hd
  obtain ⟨tone, ht⟩ := State.tick_drive hh hc hd
  refine ⟨_, ht, fun p hp hle => ?_, fun hquiet => ?_⟩
  · have hflip := Drive.stepEvent_dir_ne_iff dc.maxPos dr
    rw [Drive.ticked_of_steps _ ((Drive.steps_iff hp).2 hle)]
    exact ⟨hflip.2, fun h0 hmax => not_not.1 fun hne => (hflip.1 hne).elim h0 hmax,
      fun hm => hflip.2 (Drive.stepEvent_pos_of_maxPos_one hdr hm)⟩
  · obtain ⟨hpos, hdir⟩ := Drive.ticked_of_not_steps dc.maxPos ((Drive.steps_eq_false_iff dr).2 hquiet)
    exact ⟨hdir, hpos⟩

end Sys2Proof.Machine
end

-- ==== Proofs: the multiplexer's operations (spec/42_multiplexer_ops.md) ====
section
/-! SET_LINE writes the pending frame alone (rule R181), and nothing outside the bank (rule R182). -/

namespace Sys2Proof.Machine

/-- Inside the bank a write keeps all but `bank` and raises DIRTY, whatever the old value (rule R181). -/
theorem State.setLine_frame_of_lt {s : State} {i : Nat} (v : Bool) (hi : i < s.cfg.nLines) :
    s.setLine i v = { s with bank := (s.setLine i v).bank, dirty := true } := by
  rw [State.setLine_of_lt hi]

/-- Settles O32: inside the bank by the frame of the write and its read-after-write rules, outside it by
`State.setLine_of_ge`. -/
theorem setLineWritesThePendingFrame : Obligations.SetLineWritesThePendingFrame := by
  intro s i v ⟨_, hbank, _⟩
  refine ⟨fun hi => ⟨s.setLine i v, rfl, State.setLine_frame_of_lt v hi,
    s.setLine_bank_length i v, ?_, fun j hj => State.setLine_lineAt_ne v hj,
    s.setLine_outAt i v⟩, fun hi => congrArg Host.Outcome.next (State.setLine_of_ge hi)⟩
  simpa using State.setLine_lineAt hbank v hi i

end Sys2Proof.Machine
end

-- ==== Proofs: the exceptions (spec/60_exceptions.md) ====
section
/-! UNSUP_COUNT and DIAG are read by nothing but their own next value (rule R230). Clearing them commutes with
every shared operation that does not extend them; UNSUPPORTED, FLUSH and TICK, which can, agree once they are
cleared again. -/

namespace Sys2Proof.Machine

@[simp] theorem State.withoutDiagnostics_cfg (s : State) : s.withoutDiagnostics.cfg = s.cfg := rfl
@[simp] theorem State.withoutDiagnostics_dirty (s : State) :
    s.withoutDiagnostics.dirty = s.dirty := rfl
@[simp] theorem State.withoutDiagnostics_outOk (s : State) :
    s.withoutDiagnostics.outOk = s.outOk := rfl
@[simp] theorem State.withoutDiagnostics_idem (s : State) :
    s.withoutDiagnostics.withoutDiagnostics = s.withoutDiagnostics := rfl

/-! ### Operations that do not write the diagnostics -/

theorem State.addressed_withoutDiagnostics (s : State) (a : Addr) (f : Nat → Drive → Drive) :
    s.withoutDiagnostics.addressed a f = (s.addressed a f).withoutDiagnostics := by
  rcases s.addressed_cases a f with ⟨h, hh | hr⟩ | ⟨hh, ds, hr, h⟩
  · rw [h]; exact if_pos hh
  · simp [State.addressed, hr]
  · rw [h, State.addressed_of_resolve (s := s.withoutDiagnostics) f hh hr]; rfl

theorem State.setLine_withoutDiagnostics (s : State) (i : Nat) (v : Bool) :
    s.withoutDiagnostics.setLine i v = (s.setLine i v).withoutDiagnostics := by
  rcases Nat.lt_or_ge i s.cfg.nLines with hi | hi
  · rw [State.setLine_of_lt hi, State.setLine_of_lt (s := s.withoutDiagnostics) hi]; rfl
  · rw [State.setLine_of_ge hi, State.setLine_of_ge (s := s.withoutDiagnostics) hi]

theorem State.shiftBit_withoutDiagnostics (s : State) (seg : Nat) (v : Bool) :
    s.withoutDiagnostics.shiftBit seg v = (s.shiftBit seg v).withoutDiagnostics := rfl

theorem State.latch_withoutDiagnostics (s : State) :
    s.withoutDiagnostics.latch = s.latch.withoutDiagnostics := rfl

theorem State.shiftAll_withoutDiagnostics (s : State) :
    s.withoutDiagnostics.shiftAll = s.shiftAll.withoutDiagnostics := by
  rw [State.shiftAll, State.shiftAll, State.shiftSegments_eq _ List.nodup_range,
    State.shiftSegments_eq _ List.nodup_range]
  rfl

/-- INIT reads the configuration and the model's own inputs alone, and clears the diagnostics itself
(rule R46). -/
theorem State.initialise_withoutDiagnostics (s : State) :
    s.withoutDiagnostics.initialise = s.initialise.withoutDiagnostics := rfl

theorem State.reconcileLine_withoutDiagnostics (s : State) (line : Nat) (dir : Dir) :
    s.withoutDiagnostics.reconcileLine line dir
      = (s.reconcileLine line dir).withoutDiagnostics := by
  have hline : s.withoutDiagnostics.lineAt line = s.lineAt line := State.lineAt_congr rfl line
  rw [State.reconcileLine, State.reconcileLine, hline, State.withoutDiagnostics_cfg]
  split
  · rfl
  · exact s.setLine_withoutDiagnostics line _

theorem State.tickDrive_withoutDiagnostics (s : State) (d : Nat) :
    s.withoutDiagnostics.tickDrive d = (s.tickDrive d).withoutDiagnostics := by
  cases hc : s.cfg.drives[d]? with
  | none =>
    rw [State.tickDrive_none (.inl hc), State.tickDrive_none (s := s.withoutDiagnostics) (.inl hc)]
  | some dc =>
    cases hd : s.drives[d]? with
    | none =>
      rw [State.tickDrive_none (.inr hd), State.tickDrive_none (s := s.withoutDiagnostics) (.inr hd)]
    | some dr =>
      rw [State.tickDrive_some hc hd, State.tickDrive_some (s := s.withoutDiagnostics) hc hd,
        ← State.reconcileLine_withoutDiagnostics]
      congr 1
      split
      · exact State.setLine_withoutDiagnostics (s.setDrive d (dr.ticked dc.maxPos)) _ _
      · rfl

theorem State.tickDrives_withoutDiagnostics (s : State) (ds : List Nat) :
    s.withoutDiagnostics.tickDrives ds = (s.tickDrives ds).withoutDiagnostics :=
  List.foldl_hom State.withoutDiagnostics State.tickDrive_withoutDiagnostics

/-! ### Operations that write the diagnostics -/

/-- Apart from the diagnostics UNSUPPORTED does nothing (rule R125). -/
theorem State.unsupported_then_withoutDiagnostics (s : State) (kind : Nat) :
    (s.unsupported kind).withoutDiagnostics = s.withoutDiagnostics := by
  rw [State.unsupported_frame]; rfl

/-- A FLUSH that fails logs it in DIAG (rule R218), so the two sides agree without DIAG only. -/
theorem State.flush_ignores_diagnostics (s : State) :
    s.withoutDiagnostics.flush.withoutDiagnostics = s.flush.withoutDiagnostics := by
  cases ho : s.outOk with
  | true =>
    rw [State.flush, State.flush, State.withoutDiagnostics_outOk, if_pos ho, if_pos ho,
      State.shiftAll_withoutDiagnostics]
    rfl
  | false =>
    rw [State.flush_of_not_outOk ho, State.flush_of_not_outOk (s := s.withoutDiagnostics) ho]
    rfl

theorem State.tick_ignores_diagnostics (s : State) :
    s.withoutDiagnostics.tick.withoutDiagnostics = s.tick.withoutDiagnostics := by
  cases hh : s.halted with
  | true => rw [State.tick_of_halted hh, State.tick_of_halted (s := s.withoutDiagnostics) hh]; rfl
  | false =>
    rw [State.tick_of_running hh, State.tick_of_running (s := s.withoutDiagnostics) hh,
      State.withoutDiagnostics_cfg, State.tickDrives_withoutDiagnostics,
      State.withoutDiagnostics_dirty]
    split
    · exact State.flush_ignores_diagnostics _
    · rfl

/-! ### Whole operations -/

/-- An operation's result without the diagnostics of its next state. -/
def outcomeWithoutDiagnostics :
    Host.Outcome State Fault Refusal → Host.Outcome State Fault Refusal
  | .next t => .next t.withoutDiagnostics
  | .fault r => .fault r
  | .refused r => .refused r

theorem outcomeWithoutDiagnostics_eq_next {o : Host.Outcome State Fault Refusal} {u : State}
    (h : outcomeWithoutDiagnostics o = .next u) : ∃ t, o = .next t ∧ t.withoutDiagnostics = u := by
  cases o with
  | next t => exact ⟨t, rfl, Host.Outcome.next.inj h⟩
  | fault r => cases h
  | refused r => cases h

theorem outcomeWithoutDiagnostics_eq_fault {o : Host.Outcome State Fault Refusal} {r : Fault}
    (h : outcomeWithoutDiagnostics o = .fault r) : o = .fault r := by
  cases o with
  | next t => cases h
  | fault r => exact h
  | refused r => cases h

theorem outcomeWithoutDiagnostics_eq_refused {o : Host.Outcome State Fault Refusal} {r : Refusal}
    (h : outcomeWithoutDiagnostics o = .refused r) : o = .refused r := by
  cases o with
  | next t => cases h
  | fault r => cases h
  | refused r => exact h

theorem exec_init_of_valid {s : State} (hv : ConfigValid s.cfg) :
    exec .init s = .next s.initialise := if_pos hv

theorem exec_init_of_invalid {s : State} (hv : ¬ ConfigValid s.cfg) :
    exec .init s = .refused .badConfiguration := if_neg hv

theorem exec_shiftBit_of_lt {s : State} {seg : Nat} (v : Bool) (h : seg < s.cfg.nSeg) :
    exec (.shiftBit seg v) s = .next (s.shiftBit seg v) := if_pos h

theorem exec_shiftBit_of_ge {s : State} {seg : Nat} (v : Bool) (h : s.cfg.nSeg ≤ seg) :
    exec (.shiftBit seg v) s = .fault .noSuchSegment := if_neg (Nat.not_lt.2 h)

theorem exec_unsupportedKind_ignores_diagnostics {i : Instr} {kind : Nat}
    (hi : i.unsupportedKind = some kind) (s : State) :
    outcomeWithoutDiagnostics (exec i s.withoutDiagnostics) = outcomeWithoutDiagnostics (exec i s) := by
  rw [exec_of_unsupportedKind hi, exec_of_unsupportedKind hi]
  simp [outcomeWithoutDiagnostics, State.unsupported_then_withoutDiagnostics]

/-- A model that drops UNSUP_COUNT and DIAG performs every operation alike (rule R230). -/
theorem exec_ignores_diagnostics (i : Instr) (s : State) :
    outcomeWithoutDiagnostics (exec i s.withoutDiagnostics) = outcomeWithoutDiagnostics (exec i s) := by
  have of_next {t u : State} (h : t.withoutDiagnostics = u.withoutDiagnostics) :
      outcomeWithoutDiagnostics (.next t) = outcomeWithoutDiagnostics (.next u) :=
    congrArg Host.Outcome.next h
  have of_commutes {t u : State} (h : t = u.withoutDiagnostics) :
      outcomeWithoutDiagnostics (.next t) = outcomeWithoutDiagnostics (.next u) :=
    of_next (by rw [h, State.withoutDiagnostics_idem])
  cases i with
  | noteOn a f => exact of_commutes (s.addressed_withoutDiagnostics a _)
  | noteOff a => exact of_commutes (s.addressed_withoutDiagnostics a _)
  | reset a => exact of_commutes (s.addressed_withoutDiagnostics a _)
  | setLine k v => exact of_commutes (s.setLine_withoutDiagnostics k v)
  | flush => exact of_next s.flush_ignores_diagnostics
  | tick => exact of_next s.tick_ignores_diagnostics
  | latch => exact of_commutes s.latch_withoutDiagnostics
  | init =>
    by_cases hv : ConfigValid s.cfg
    · rw [exec_init_of_valid hv, exec_init_of_valid (s := s.withoutDiagnostics) hv]
      exact of_commutes s.initialise_withoutDiagnostics
    · rw [exec_init_of_invalid hv, exec_init_of_invalid (s := s.withoutDiagnostics) hv]
  | shiftBit k v =>
    rcases Nat.lt_or_ge k s.cfg.nSeg with hk | hk
    · rw [exec_shiftBit_of_lt v hk, exec_shiftBit_of_lt (s := s.withoutDiagnostics) v hk]
      exact of_commutes (s.shiftBit_withoutDiagnostics k v)
    · rw [exec_shiftBit_of_ge v hk, exec_shiftBit_of_ge (s := s.withoutDiagnostics) v hk]
  | unsupportedK0 | unsupportedK4 | unsupportedK5 | unsupportedK6 | unsupportedK7 | unsupportedK8
  | unsupportedK9 | unsupportedK10 | unsupportedK11 | unsupportedK12 | unsupportedK13
  | unsupportedK14 | unsupportedK15 => exact exec_unsupportedKind_ignores_diagnostics rfl s

/-- Settles O47: each kind of result is read off `exec_ignores_diagnostics`. -/
theorem diagnosticsNeverAffectControl : Obligations.DiagnosticsNeverAffectControl := by
  intro i s
  have hsame := exec_ignores_diagnostics i s
  refine ⟨fun t h => ?_, fun r h => ?_, fun r h => ?_⟩ <;> rw [h] at hsame
  · exact outcomeWithoutDiagnostics_eq_next hsame
  · exact outcomeWithoutDiagnostics_eq_fault hsame
  · exact outcomeWithoutDiagnostics_eq_refused hsame

end Sys2Proof.Machine
end

-- ==== Proofs: reset and the hazards (spec/70_reset_and_hazards.md) ====
section
/-! What a step adds to the trace of the pins (rule R250). LATCH is performed by FLUSH alone (rule R98), so a
latch pulse arrives only at the end of a whole FLUSH's events. -/

namespace Sys2Proof.Machine

/-! ### The clock pulses of a frame -/

theorem bitEvents_count_srclkRise (seg j : Nat) (v : Bool) :
    (bitEvents j v).count (.srclkRise seg) = if j = seg then 1 else 0 := by
  simp [bitEvents, List.count_cons]

/-- A serial frame clocks its own segment 64 times and no other (rules R99, R100). -/
theorem State.segmentEvents_count_srclkRise (s : State) (seg j : Nat) :
    (s.segmentEvents j).count (.srclkRise seg) = if j = seg then 64 else 0 := by
  have hbits : frameOrder.length = 64 := by rw [frameOrder_eq, List.length_reverse, List.length_range]
  simp only [State.segmentEvents, List.count_flatMap, Function.comp_def, bitEvents_count_srclkRise,
    List.map_const', List.sum_replicate, hbits, smul_eq_mul, mul_ite, mul_one, mul_zero]

/-- The bits of a FLUSH, all its events but the latch pulse (rule R184). -/
def State.frameBitEvents (s : State) : List PinEvent :=
  (List.range s.cfg.nSeg).flatMap s.segmentEvents

theorem State.flushEvents_eq (s : State) :
    s.flushEvents = s.frameBitEvents ++ [.rclkRise, .rclkFall] := rfl

theorem State.rclkRise_not_mem_frameBitEvents (s : State) :
    PinEvent.rclkRise ∉ s.frameBitEvents := by
  simp [State.frameBitEvents, State.rclkRise_not_mem_segmentEvents]

/-- Every segment is clocked once per bit of its frame: it is visited once, and no other visit clocks it. -/
theorem State.frameBitEvents_count_srclkRise (s : State) {seg : Nat} (h : seg < s.cfg.nSeg) :
    s.frameBitEvents.count (.srclkRise seg) = 64 := by
  have hvisits : (List.range s.cfg.nSeg).count seg = 1 :=
    List.count_eq_one_of_mem List.nodup_range (List.mem_range.2 h)
  have hothers : ∀ j, j ≠ seg → j ∈ List.range s.cfg.nSeg →
      (List.count (.srclkRise seg) ∘ s.segmentEvents) j = 0 := fun j hj _ => by
    rw [Function.comp_apply, State.segmentEvents_count_srclkRise, if_neg hj]
  rw [State.frameBitEvents, List.count_flatMap, List.sum_map_eq_nsmul_single seg _ hothers, hvisits,
    one_nsmul, Function.comp_apply, State.segmentEvents_count_srclkRise, if_pos rfl]

/-! ### What operations and steps add -/

/-- The pin events added are none, or those of one completed FLUSH under the same configuration. -/
def State.AddsAtMostOneFlush (s t : State) : Prop :=
  t.pins = s.pins ∨ ∃ u : State, u.cfg = s.cfg ∧ t.pins = s.pins ++ u.flushEvents

theorem State.flush_addsAtMostOneFlush (s : State) : s.AddsAtMostOneFlush s.flush := by
  cases ho : s.outOk with
  | true => exact .inr ⟨s, rfl, by rw [State.flush_frame ho]⟩
  | false => exact .inl (by rw [State.flush_of_not_outOk ho, State.raiseOutputUnavailable_eq])

/-- The drive loop adds no pin event, and at most one FLUSH follows it (rule R156). -/
theorem State.tick_addsAtMostOneFlush (s : State) : s.AddsAtMostOneFlush s.tick := by
  cases hh : s.halted with
  | true => exact .inl (by rw [State.tick_of_halted hh])
  | false =>
    rw [State.tick_of_running hh]
    split
    · simpa [State.AddsAtMostOneFlush] using
        (s.tickDrives (List.range s.cfg.nDrives)).flush_addsAtMostOneFlush
    · exact .inl (s.tickDrives_pins _)

/-- The operations that arrive on a port, INIT aside, do not pulse the latch by themselves (rule R98). -/
theorem exec_addsAtMostOneFlush {i : Instr} {s t : State} (hport : i.port ≠ none)
    (h : exec i s = .next t) : i = .init ∨ s.AddsAtMostOneFlush t := by
  rcases exec_cases h with ⟨a, f, -, rfl⟩ | ⟨a, -, rfl⟩ | ⟨a, -, rfl⟩ | ⟨kind, -, rfl⟩ |
    ⟨k, v, -, rfl⟩ | ⟨-, rfl⟩ | ⟨-, rfl⟩ | ⟨hi, -, -⟩ | ⟨k, v, hi, -, -⟩ | ⟨hi, -⟩
  · exact .inr (.inl (by rw [State.addressed_frame]))
  · exact .inr (.inl (by rw [State.addressed_frame]))
  · exact .inr (.inl (by rw [State.addressed_frame]))
  · exact .inr (.inl (by rw [State.unsupported_frame]))
  · exact .inr (.inl (s.setLine_pins k v))
  · exact .inr s.flush_addsAtMostOneFlush
  · exact .inr s.tick_addsAtMostOneFlush
  · exact .inl hi
  · exact absurd (congrArg Instr.port hi) hport
  · exact absurd (congrArg Instr.port hi) hport

/-- A step takes the reset strobe, or adds at most the events of one FLUSH. -/
theorem step_addsAtMostOneFlush {s t : State} (h : step s = .next t) :
    (∃ b rest, s.inputs = .word (.reset b) :: rest) ∨ s.AddsAtMostOneFlush t := by
  rcases step_cases h with ⟨-, rfl⟩ | ⟨level, rest, -, rfl⟩ | ⟨e, logged, rest, -, rfl⟩ |
    ⟨w, rest, -, rfl⟩ | ⟨w, rest, i, hin, hdecode, hx⟩
  · exact .inr (.inl rfl)
  · exact .inr (.inl rfl)
  · exact .inr (.inl (by rw [State.frameDropped_frame, State.withInputs_pins]))
  · exact .inr (.inl (s.withInputs_pins rest))
  · rcases exec_addsAtMostOneFlush (decode_has_port hdecode) hx with rfl | hadds
    · exact .inl ⟨1, rest, by rw [hin, decode_init hdecode]⟩
    · exact .inr hadds

/-- Settles O41: a step that adds pin events adds a whole FLUSH's, and there the latch pulse is last. -/
theorem latchFollowsTheWholeFrame : Obligations.LatchFollowsTheWholeFrame := by
  intro s t h
  refine (step_addsAtMostOneFlush h).imp_right fun hadds => ?_
  rcases hadds with hsame | ⟨u, hcfg, hflush⟩
  · exact ⟨[], by rw [hsame, List.append_nil], fun hmem => absurd hmem List.not_mem_nil⟩
  · exact ⟨u.flushEvents, hflush, fun _ => ⟨u.frameBitEvents, u.flushEvents_eq,
      u.rclkRise_not_mem_frameBitEvents,
      fun seg hseg => u.frameBitEvents_count_srclkRise (hcfg ▸ hseg)⟩⟩

end Sys2Proof.Machine
end

-- ==== Proofs: decoding and encoding by field ====
section
/-! The encoding (spec/30_encoding.md): a word decodes by its fields, and the encoder and the decoder
agree. -/

namespace Sys2Proof

/-! ### Decoding by field, encoding and back (rules R92 to R98) -/

/-- The command operation of the three fields KIND, address and FREQ (rule R97). -/
def commandOfFields (kind : Nat) (addr : Addr) (freq : Nat) : Instr :=
  match kind with
  | 1 => .noteOn addr freq
  | 2 => .noteOff addr
  | 3 => .reset addr
  | kind => unsupportedOfKind kind

theorem decodeCommand_eq (w : CommandWord) :
    decodeCommand w
      = commandOfFields (field w 31 28) (decodeAddr (field w 27 26) (field w 25 16))
          (field w 15 0) := rfl

/-- A command word assembled from fields that fit decodes by those fields. -/
theorem decodeCommand_commandWord {kind freq : Nat} {addr : Addr} (hk : kind < 16)
    (ha : addr.wf = true) (hf : freq < 65536) :
    decodeCommand (commandWord kind addr.amode addr.aid freq) = commandOfFields kind addr freq := by
  have hm := addr.amode_lt
  have haid := Addr.aid_lt ha
  rw [decodeCommand_eq, commandWord_kind hk hm haid hf, commandWord_amode hk hm haid hf,
    commandWord_aid hk hm haid hf, commandWord_freq hk hm haid hf, decodeAddr_fields]

theorem decodeMux_setLine {index : Nat} (state : Bool) (hi : index < 16384) :
    decodeMux (muxWord 0 state.toNat index) = .setLine index state := by
  have hs : state.toNat < 2 := state.toNat_lt
  rw [decodeMux, muxWord_mop (by decide) hs hi, if_pos rfl, muxWord_index (by decide) hs hi,
    muxWord_state (by decide) hs hi]
  cases state <;> rfl

/-- What the encoder gives for a well-formed operation decodes to the operation. -/
theorem decode_encode {i : Instr} {w : PortWord} (hwf : i.wf = true) (h : encode i = some w) :
    decode w = .ok i := by
  cases i with
  | noteOn addr freq =>
    obtain ⟨ha, hf⟩ : addr.wf = true ∧ freq < 65536 := by simpa [Instr.wf] using hwf
    cases h
    exact congrArg Except.ok (decodeCommand_commandWord (kind := 1) (by decide) ha hf)
  | noteOff addr =>
    cases h
    exact congrArg Except.ok
      (decodeCommand_commandWord (kind := 2) (freq := 0) (by decide) hwf (by decide))
  | reset addr =>
    cases h
    exact congrArg Except.ok
      (decodeCommand_commandWord (kind := 3) (freq := 0) (by decide) hwf (by decide))
  | setLine index state =>
    cases h
    exact congrArg Except.ok (decodeMux_setLine state (of_decide_eq_true hwf))
  | shiftBit seg bit => cases h
  | latch => cases h
  | flush | tick | init => cases h; rfl
  | unsupportedK0 | unsupportedK4 | unsupportedK5 | unsupportedK6 | unsupportedK7 | unsupportedK8
  | unsupportedK9 | unsupportedK10 | unsupportedK11 | unsupportedK12 | unsupportedK13
  | unsupportedK14 | unsupportedK15 => cases h; rfl

open Laws.EncodePort in
theorem encode_port (i : Instr) : Statement i := by
  cases i
  exacts [noteOn _ _, noteOff _, reset _, unsupportedK0, unsupportedK4, unsupportedK5,
    unsupportedK6, unsupportedK7, unsupportedK8, unsupportedK9, unsupportedK10, unsupportedK11,
    unsupportedK12, unsupportedK13, unsupportedK14, unsupportedK15, setLine _ _, flush, tick, init,
    shiftBit _ _, latch]

/-- Settles O6: an operation with a port has a word there, and the word decodes to it. -/
theorem encodedOperationsDecodeBack : Obligations.EncodedOperationsDecodeBack := by
  intro i hwf p hp
  obtain ⟨w, hw, hwp⟩ := Option.map_eq_some_iff.1 ((encode_port i).trans hp)
  exact ⟨w, hw, hwp, decode_encode hwf hw⟩

/-! ### The operation of a word, and its KIND -/

theorem unsupportedOfKind_wf_port (kind : Nat) :
    (unsupportedOfKind kind).wf = true ∧ (unsupportedOfKind kind).port = some .command := by
  unfold unsupportedOfKind
  split <;> exact ⟨rfl, rfl⟩

theorem commandOfFields_wf_port (kind : Nat) {addr : Addr} {freq : Nat} (ha : addr.wf = true)
    (hf : freq < 65536) :
    (commandOfFields kind addr freq).wf = true ∧
      (commandOfFields kind addr freq).port = some .command := by
  unfold commandOfFields
  split
  · exact ⟨by simp [Instr.wf, ha, hf], rfl⟩
  · exact ⟨ha, rfl⟩
  · exact ⟨ha, rfl⟩
  · exact unsupportedOfKind_wf_port kind

/-- Whatever decodes fits its encoding and belongs to the port the word stands on (rules R91, R92). -/
theorem decode_wf_port {w : PortWord} {i : Instr} (h : decode w = .ok i) :
    i.wf = true ∧ i.port = some w.port := by
  cases w with
  | command w =>
    cases h
    exact commandOfFields_wf_port _ (decodeAddr_wf _ (field_lt w 25 16)) (field_lt w 15 0)
  | multiplexer w =>
    cases h
    unfold decodeMux
    split
    · exact ⟨decide_eq_true (field_lt w 13 0), rfl⟩
    · exact ⟨rfl, rfl⟩
  | timer b | reset b =>
    simp only [decode] at h
    split at h
    · cases h; exact ⟨rfl, rfl⟩
    · cases h

/-- Settles O7: what decodes is well formed and has the word's port, so O6 re-encodes it. -/
theorem decodedWordsReencode : Obligations.DecodedWordsReencode := by
  intro w i h
  obtain ⟨hwf, hp⟩ := decode_wf_port h
  obtain ⟨w', hw', -, hd⟩ := encodedOperationsDecodeBack i hwf _ hp
  exact ⟨hwf, hp, w', hw', hd⟩

/-- Settles O2: the address is the one decoded from AMODE and AID. -/
theorem commandWordDecodesByField : Obligations.CommandWordDecodesByField := by
  intro w
  have hkind : field w 31 28 = (w.extractLsb' 28 4).toNat := field_eq_extractLsb' w 31 28
  have hamode : field w 27 26 = (w.extractLsb' 26 2).toNat := field_eq_extractLsb' w 27 26
  have haid : field w 25 16 = (w.extractLsb' 16 10).toNat := field_eq_extractLsb' w 25 16
  have hfreq : field w 15 0 = (w.extractLsb' 0 16).toNat := field_eq_extractLsb' w 15 0
  refine ⟨decodeAddr (field w 27 26) (field w 25 16), ?_, ?_, ?_, ?_, ?_, ?_, ?_⟩
  iterate 4 exact fun h => by rw [hamode, haid, h]; rfl
  iterate 3 exact fun h => by rw [decode, decodeCommand_eq, hkind, hfreq, h]; rfl

/-- A one-bit field is that bit of the word. -/
theorem field_bit {n : Nat} (w : BitVec n) (k : Nat) : field w k k = (w.getLsbD k).toNat := by
  rw [field, Nat.add_sub_cancel_left, pow_one, BitVec.getLsbD, Nat.toNat_testBit]

theorem decodeMux_of_clear {w : MuxWord} (h : w.getLsbD 15 = false) :
    decodeMux w = .setLine (field w 13 0) (w.getLsbD 14) := by
  rw [decodeMux, field_bit, field_bit, h]
  cases w.getLsbD 14 <;> rfl

theorem decodeMux_of_set {w : MuxWord} (h : w.getLsbD 15 = true) : decodeMux w = .flush := by
  rw [decodeMux, field_bit, h]
  rfl

theorem decode_timer_iff (b : BitVec 1) : decode (.timer b) = .ok .tick ↔ b = 1 := by
  by_cases h : b = 1 <;> simp [decode, h]

theorem decode_reset_iff (b : BitVec 1) : decode (.reset b) = .ok .init ↔ b = 1 := by
  by_cases h : b = 1 <;> simp [decode, h]

/-- Settles O4: bit 15 decides the multiplexer word, the level decides a strobe. -/
theorem muxWordDecodesByField : Obligations.MuxWordDecodesByField := by
  refine ⟨fun w => ⟨fun h => ?_, fun h => congrArg Except.ok (decodeMux_of_set h)⟩, fun b => ?_⟩
  · rw [decode, decodeMux_of_clear h, field_eq_extractLsb' w 13 0]
  · rw [decode, decode]
    by_cases h : b = 1
    · simp [h]
    · rw [if_neg h, if_neg h]
      simp only [reduceCtorEq, exists_false, h, iff_self, and_self]

/-! ### The masks of the operation table (rule R108) -/

/-- The KIND of a command operation (rule R93). -/
def Instr.kind : Instr → Option Nat
  | .noteOn _ _ => some 1
  | .noteOff _ => some 2
  | .reset _ => some 3
  | i => i.unsupportedKind

theorem commandOfFields_kind {kind : Nat} (hk : kind < 16) (addr : Addr) (freq : Nat) :
    (commandOfFields kind addr freq).kind = some kind := by
  interval_cases kind <;> rfl

/-- The mask of the command rows keeps the KIND field. -/
theorem mask_eq_iff_kind (w : CommandWord) {kind : Nat} (hk : kind < 16) :
    w &&& 0xF0000000 = BitVec.ofNat 32 (kind * 2 ^ 28) ↔ field w 31 28 = kind := by
  have hmask : w &&& (0xF0000000 : CommandWord) = (w >>> 28) <<< 28 := by
    have hones : (0xF0000000 : CommandWord) = BitVec.allOnes 32 <<< 28 := by decide
    rw [hones]
    ext i hi
    rw [BitVec.getElem_and, BitVec.getElem_shiftLeft, BitVec.getElem_shiftLeft,
      BitVec.getElem_allOnes]
    by_cases h : i < 28
    · simp [h]
    · simp [h, Nat.add_sub_cancel' (Nat.not_lt.1 h), BitVec.getLsbD_eq_getElem hi]
  have hw := w.isLt
  rw [hmask, ← BitVec.toNat_inj, field]
  simp only [BitVec.toNat_shiftLeft, BitVec.toNat_ushiftRight, BitVec.toNat_ofNat,
    Nat.shiftLeft_eq, Nat.shiftRight_eq_div_pow]
  omega

/-- A row of the command port selects its operations: those of its KIND. -/
theorem command_row_iff (w : CommandWord) {kind : Nat} (hk : kind < 16) {p : Instr → Prop}
    (hrow : ∀ addr freq, p (commandOfFields kind addr freq))
    (hkind : ∀ i, p i → i.kind = some kind) :
    w &&& 0xF0000000 = BitVec.ofNat 32 (kind * 2 ^ 28) ↔ p (decodeCommand w) := by
  rw [mask_eq_iff_kind w hk, decodeCommand_eq]
  refine ⟨fun h => h ▸ hrow _ _, fun hp => ?_⟩
  have := hkind _ hp
  rw [commandOfFields_kind (field_lt w 31 28)] at this
  exact Option.some.inj this

/-- A row of an UNSUPPORTED kind has one operation (rule R102). -/
theorem unsupported_row_iff (w : CommandWord) {kind : Nat} (hk : kind < 16) {i : Instr}
    (hrow : ∀ addr freq, commandOfFields kind addr freq = i) (hkind : i.kind = some kind) :
    w &&& 0xF0000000 = BitVec.ofNat 32 (kind * 2 ^ 28) ↔ decode (.command w) = .ok i := by
  rw [decode, Except.ok.injEq]
  exact command_row_iff w hk (p := (· = i)) hrow fun _ h => h ▸ hkind

/-- The mask of the multiplexer rows keeps bit 15. -/
theorem mux_mask_eq (w : MuxWord) :
    w &&& 0x8000 = if w.getLsbD 15 then 0x8000 else 0 := by
  have hbit : (0x8000 : MuxWord) = BitVec.twoPow 16 15 := by decide
  rw [hbit, BitVec.and_twoPow]
  rfl

theorem setLine_row_iff (w : MuxWord) :
    w &&& 0x8000 = 0x0000 ↔ ∃ i v, decode (.multiplexer w) = .ok (.setLine i v) := by
  rw [mux_mask_eq, decode]
  cases h : w.getLsbD 15 with
  | false => simp [decodeMux_of_clear h]
  | true => simp [decodeMux_of_set h]

theorem flush_row_iff (w : MuxWord) :
    w &&& 0x8000 = 0x8000 ↔ decode (.multiplexer w) = .ok .flush := by
  rw [mux_mask_eq, decode]
  cases h : w.getLsbD 15 with
  | false => simp [decodeMux_of_clear h]
  | true => simp [decodeMux_of_set h]

theorem strobe_mask_eq (b : BitVec 1) : b &&& 1 = b := by
  revert b; decide

/-- Settles O5: the rows of the command port by KIND, the multiplexer's two by bit 15. -/
theorem tableRowsSelectOperations : Obligations.TableRowsSelectOperations := by
  refine ⟨fun w => ?_, fun w => ⟨setLine_row_iff w, flush_row_iff w⟩, fun b => ?_⟩
  · have noteOn_row : w &&& 0xF0000000 = BitVec.ofNat 32 (1 * 2 ^ 28) ↔
        ∃ a f, decode (.command w) = .ok (.noteOn a f) := by
      simp only [decode, Except.ok.injEq]
      exact command_row_iff w (p := fun i => ∃ a f, i = .noteOn a f) (by decide)
        (fun a f => ⟨a, f, rfl⟩) (by rintro _ ⟨a, f, rfl⟩; rfl)
    have noteOff_row : w &&& 0xF0000000 = BitVec.ofNat 32 (2 * 2 ^ 28) ↔
        ∃ a, decode (.command w) = .ok (.noteOff a) := by
      simp only [decode, Except.ok.injEq]
      exact command_row_iff w (p := fun i => ∃ a, i = .noteOff a) (by decide)
        (fun a _ => ⟨a, rfl⟩) (by rintro _ ⟨a, rfl⟩; rfl)
    have reset_row : w &&& 0xF0000000 = BitVec.ofNat 32 (3 * 2 ^ 28) ↔
        ∃ a, decode (.command w) = .ok (.reset a) := by
      simp only [decode, Except.ok.injEq]
      exact command_row_iff w (p := fun i => ∃ a, i = .reset a) (by decide)
        (fun a _ => ⟨a, rfl⟩) (by rintro _ ⟨a, rfl⟩; rfl)
    exact ⟨noteOn_row, noteOff_row, reset_row,
      unsupported_row_iff w (kind := 0) (by decide) (fun _ _ => rfl) rfl,
      unsupported_row_iff w (kind := 4) (by decide) (fun _ _ => rfl) rfl,
      unsupported_row_iff w (kind := 5) (by decide) (fun _ _ => rfl) rfl,
      unsupported_row_iff w (kind := 6) (by decide) (fun _ _ => rfl) rfl,
      unsupported_row_iff w (kind := 7) (by decide) (fun _ _ => rfl) rfl,
      unsupported_row_iff w (kind := 8) (by decide) (fun _ _ => rfl) rfl,
      unsupported_row_iff w (kind := 9) (by decide) (fun _ _ => rfl) rfl,
      unsupported_row_iff w (kind := 10) (by decide) (fun _ _ => rfl) rfl,
      unsupported_row_iff w (kind := 11) (by decide) (fun _ _ => rfl) rfl,
      unsupported_row_iff w (kind := 12) (by decide) (fun _ _ => rfl) rfl,
      unsupported_row_iff w (kind := 13) (by decide) (fun _ _ => rfl) rfl,
      unsupported_row_iff w (kind := 14) (by decide) (fun _ _ => rfl) rfl,
      unsupported_row_iff w (kind := 15) (by decide) (fun _ _ => rfl) rfl⟩
  · rw [strobe_mask_eq]
    exact ⟨(decode_timer_iff b).symm, (decode_reset_iff b).symm⟩

/-! ### Unused fields (rule R96) -/

/-- AMODE and AID are the two parts of the twelve address bits. -/
theorem field_amode_aid (w : CommandWord) :
    field w 27 26 = field w 27 16 / 2 ^ 10 ∧ field w 25 16 = field w 27 16 % 2 ^ 10 := by
  simp only [field]
  omega

/-- NOTE_OFF and RESET do not read FREQ (rule R96). -/
theorem commandOfFields_ignores_freq {kind : Nat} (h : kind = 2 ∨ kind = 3) (addr : Addr)
    (f f' : Nat) : commandOfFields kind addr f = commandOfFields kind addr f' := by
  rcases h with rfl | rfl <;> rfl

/-- Settles O8: a command word decodes by its fields, and the unused ones drop out. -/
theorem unusedFieldsAreIgnored : Obligations.UnusedFieldsAreIgnored := by
  refine ⟨fun w w' hk => ?_,
    fun w w' h h' => by rw [decode, decode, decodeMux_of_set h, decodeMux_of_set h']⟩
  have hkind (v : CommandWord) : field v 31 28 = (v.extractLsb' 28 4).toNat :=
    field_eq_extractLsb' v 31 28
  have hamode (v : CommandWord) : field v 27 26 = (v.extractLsb' 26 2).toNat :=
    field_eq_extractLsb' v 27 26
  have hsame : field w' 31 28 = field w 31 28 := by rw [hkind, hkind, hk]
  simp only [decode, Except.ok.injEq]
  refine ⟨fun h ha => ?_, fun h h' hf => ?_, fun h1 h2 h3 => ?_⟩
  · have haddr : field w 27 16 = field w' 27 16 := by
      rw [field_eq_extractLsb', field_eq_extractLsb', ha]
    obtain ⟨hm, hd⟩ := field_amode_aid w
    obtain ⟨hm', hd'⟩ := field_amode_aid w'
    rw [decodeCommand_eq, decodeCommand_eq, hsame, hm, hd, hm', hd', haddr]
    exact commandOfFields_ignores_freq
      (by rw [hkind]; exact h.imp (congrArg BitVec.toNat) (congrArg BitVec.toNat)) _ _ _
  · have hfreq : field w 15 0 = field w' 15 0 := by
      rw [field_eq_extractLsb', field_eq_extractLsb', hf]
    rw [decodeCommand_eq, decodeCommand_eq, hsame, hamode, hamode, h, h', hfreq]
    rfl
  · rw [BitVec.toNat_ne, ← hkind] at h1 h2 h3
    rw [decodeCommand_of_other_kind h1 h2 h3, ← hsame, decodeCommand_of_other_kind]
    all_goals rwa [hsame]

/-- Settles O1: each word is decoded by evaluation. -/
theorem specWordsDecode : Obligations.SpecWordsDecode := by
  unfold Obligations.SpecWordsDecode
  and_intros <;> decide

end Sys2Proof
end

-- ==== Proofs: addresses, periods and commands ====
section
/-! Address resolution (spec/20_memory.md rule R64), the frequency-to-period mapping and the command
operations (spec/40_command_ops.md). -/

namespace Sys2Proof.Machine

/-! ### Addresses (rule R64) -/

/-- A group of a valid configuration resolves to its drives, ascending. -/
theorem resolve_group {c : Config} (hv : ConfigValid c) {g : Nat} {members : List Nat}
    (hg : c.groups[g]? = some members) :
    ∃ ds, resolve c (.group g) = some ds ∧ ds.Pairwise (· < ·) ∧ ∀ d, d ∈ ds ↔ d ∈ members := by
  obtain ⟨-, -, -, -, -, -, -, -, -, -, -, hgroups, -⟩ := hv
  refine ⟨_, by rw [resolve, hg], List.pairwise_lt_range.filter _, fun d => ?_⟩
  have hlt : d ∈ members → d < c.nDrives := hgroups members (List.mem_of_getElem? hg) d
  simpa using hlt

theorem resolve_absent_group {c : Config} {g : Nat} (hg : c.groups.length ≤ g) :
    resolve c (.group g) = none := by
  rw [resolve, List.getElem?_eq_none hg]

/-- Settles O9: one equation of `resolve` per address form. -/
theorem addressesResolveToDrives : Obligations.AddressesResolveToDrives := fun _ =>
  ⟨fun _ => rfl, fun hv _ _ hg => resolve_group hv hg, fun _ => resolve_absent_group,
    ⟨_, rfl, List.pairwise_lt_range, fun _ => List.mem_range⟩, fun _ => rfl⟩

/-! ### The period of a frequency (rule R122) -/

/-- The quotient of `period_of`, by the two inequalities that define it. -/
theorem period_quotient_iff {r f p : Nat} (hf : 0 < f) :
    (r + f) / (2 * f) = p ↔ 2 * f * p ≤ r + f ∧ r + f < 2 * f * (p + 1) := by
  rw [Nat.div_eq_iff (by omega), Nat.mul_comm p, Nat.mul_succ]
  omega

theorem periodOf_eq_some_iff (c : Config) (f p : Nat) :
    periodOf c f = some p ↔
      0 < f ∧ 1 ≤ p ∧ p ≤ c.periodMax ∧
      2 * f * p ≤ c.tickRate + f ∧ c.tickRate + f < 2 * f * (p + 1) := by
  rcases Nat.eq_zero_or_pos f with rfl | hf
  · simp [periodOf]
  · rw [← period_quotient_iff hf, periodOf, if_neg hf.ne']
    dsimp only
    generalize (c.tickRate + f) / (2 * f) = q
    split
    next hzero => simp; omega
    next hzero =>
      split
      next hmax => simp; omega
      next hmax => simp; omega

/-- Settles O10: the quotient is pinned by its two inequalities, the guards are the bounds. -/
theorem periodIsNearestWholeTicks : Obligations.PeriodIsNearestWholeTicks := periodOf_eq_some_iff

theorem periodOf_antitone {c : Config} {f f' p p' : Nat} (hf : f ≤ f') (h : periodOf c f = some p)
    (h' : periodOf c f' = some p') : p' ≤ p := by
  obtain ⟨-, -, -, -, hlt⟩ := (periodOf_eq_some_iff c f p).1 h
  obtain ⟨-, -, -, hle', -⟩ := (periodOf_eq_some_iff c f' p').1 h'
  by_contra hp
  have : 2 * f' * (p + 1) ≤ 2 * f' * p' := Nat.mul_le_mul_left _ (by omega)
  have : f * (2 * p + 1) ≤ f' * (2 * p + 1) := Nat.mul_le_mul_right _ hf
  linarith

theorem periodOf_eq_none_of_lt {c : Config} {f : Nat} (h : c.tickRate < f) : periodOf c f = none := by
  rw [Option.eq_none_iff_forall_ne_some]
  intro p hp
  obtain ⟨-, h1, -, hle, -⟩ := (periodOf_eq_some_iff c f p).1 hp
  have : 2 * f * 1 ≤ 2 * f * p := Nat.mul_le_mul_left _ h1
  omega

/-- Settles O11: the laws are read off the two inequalities of O10. -/
theorem periodMappingLaws : Obligations.PeriodMappingLaws := by
  intro c
  refine ⟨fun f p h => ?_, fun f f' p p' => periodOf_antitone, fun hmax f => ?_,
    fun f => periodOf_eq_none_of_lt, rfl⟩
  · obtain ⟨-, -, -, hle, hlt⟩ := (periodOf_eq_some_iff c f p).1 h
    have : 2 * f * (p + 1) = 2 * f * p + 2 * f := Nat.mul_succ ..
    omega
  · rw [periodOf_eq_some_iff]
    omega

/-- The drive's range is judged first, then the mapping (rule R121). -/
theorem acceptedPeriod_of_drive {c : Config} {d : Nat} {dc : DriveConfig} (hc : c.drives[d]? = some dc)
    (f : Nat) :
    acceptedPeriod c d f = if f < dc.freqMin ∨ dc.freqMax < f then none else periodOf c f := by
  simp only [acceptedPeriod, hc]

/-- An accepted period is within the bounds of invariant I4 (rule R27). -/
theorem acceptedPeriod_bounds {c : Config} {d f p : Nat} (h : acceptedPeriod c d f = some p) :
    1 ≤ p ∧ p ≤ c.periodMax := by
  cases hc : c.drives[d]? with
  | none => simp [acceptedPeriod, hc] at h
  | some dc =>
    rw [acceptedPeriod_of_drive hc, Option.ite_none_left_eq_some] at h
    obtain ⟨-, h1, hmax, -⟩ := (periodOf_eq_some_iff c f p).1 h.2
    exact ⟨h1, hmax⟩

/-! ### Addressed commands -/

theorem noteOnDrive_of_some {c : Config} {f d p : Nat} (h : acceptedPeriod c d f = some p) (dr : Drive) :
    noteOnDrive c f d dr = { dr with tone := .active p } := by
  rw [noteOnDrive, h]

theorem noteOnDrive_of_none {c : Config} {f d : Nat} (h : acceptedPeriod c d f = none) (dr : Drive) :
    noteOnDrive c f d dr = dr := by
  rw [noteOnDrive, h]

section
variable {s : State} {a : Addr} {ds : List Nat} (f : Nat → Drive → Drive)
  (hh : s.halted = false) (hr : resolve s.cfg a = some ds)
include hh hr

theorem State.addressed_target {d : Nat} (hd : d ∈ ds) :
    (s.addressed a f).drives[d]? = (s.drives[d]?).map (f d) := by
  rw [State.addressed_of_resolve f hh hr, State.updateDrives_drive]
  simp only [if_pos hd]

theorem State.addressed_other {d : Nat} (hd : d ∉ ds) :
    (s.addressed a f).drives[d]? = s.drives[d]? := by
  rw [State.addressed_of_resolve f hh hr, State.updateDrives_drive]
  simp only [if_neg hd, Option.map_id']

end

/-- An addressed command leaves a drive's record or writes it once. -/
theorem State.addressed_drive_cases {s : State} {a : Addr} {f : Nat → Drive → Drive} {d : Nat}
    {dr dr' : Drive} (hd : s.drives[d]? = some dr) (hd' : (s.addressed a f).drives[d]? = some dr') :
    dr' = dr ∨ dr' = f d dr := by
  rcases s.addressed_cases a f with ⟨heq, -⟩ | ⟨-, ds, -, heq⟩
  · rw [heq, hd] at hd'
    exact .inl (Option.some.inj hd').symm
  · rw [heq, State.updateDrives_drive, hd, Option.map_some, Option.some.injEq] at hd'
    split at hd'
    · exact .inr hd'.symm
    · exact .inl hd'.symm

theorem State.addressed_halted (s : State) (a : Addr) (f : Nat → Drive → Drive) :
    (s.addressed a f).halted = s.halted := by
  rw [State.addressed_frame]

theorem State.addressed_of_halted {s : State} (h : s.halted = true) (a : Addr)
    (f : Nat → Drive → Drive) : s.addressed a f = s := if_pos h

/-- Settles O12: a target's record by `noteOnDrive`, the rest by the rules of addressed commands. -/
theorem noteOnRetunesAcceptedTargets : Obligations.NoteOnRetunesAcceptedTargets := by
  intro s a f ds hh hr
  refine ⟨s.addressed a (noteOnDrive s.cfg f), rfl, s.addressed_frame a _,
    (s.addressed_sameSizes a _).drives, fun d => State.addressed_other _ hh hr,
    fun d hd dc dr hc hdr => ?_⟩
  have haccept := acceptedPeriod_of_drive hc f
  rw [State.addressed_target _ hh hr hd, hdr, Option.map_some]
  refine ⟨fun p hmin hmax hp => ?_, fun hrej => ?_⟩
  · rw [if_neg (by omega), hp] at haccept
    rw [noteOnDrive_of_some haccept]
  · have hnone : acceptedPeriod s.cfg d f = none := by
      rw [haccept, ite_eq_left_iff]
      intro hin
      tauto
    rw [noteOnDrive_of_none hnone]

/-- Settles O13: a target is silenced, the rest by the rules of addressed commands. -/
theorem noteOffSilencesTargets : Obligations.NoteOffSilencesTargets := fun s a _ hh hr =>
  ⟨s.addressed a fun _ dr => dr.silence, rfl, s.addressed_frame a _,
    (s.addressed_sameSizes a _).drives, fun _ => State.addressed_other _ hh hr,
    fun _ => State.addressed_target _ hh hr⟩

/-- Settles O14: a target is re-homed, the rest by the rules of addressed commands. -/
theorem resetRehomesTargets : Obligations.ResetRehomesTargets := fun s a _ hh hr =>
  ⟨s.addressed a fun _ dr => resetDrive s.cfg dr, rfl, s.addressed_frame a _,
    (s.addressed_sameSizes a _).drives, fun _ => State.addressed_other _ hh hr,
    fun _ => State.addressed_target _ hh hr⟩

/-- Settles O15: the meaning of the 13 rows in a running block, and the saturating count. -/
theorem unsupportedKindCountsAndLogs : Obligations.UnsupportedKindCountsAndLogs := fun _ _ s hi hh =>
  ⟨_, exec_unsupportedKind_of_running hi hh, rfl, satIncr_toNat s.unsupCount, rfl⟩

theorem State.addressed_of_invalid {s : State} {a : Addr} (h : resolve s.cfg a = none)
    (f : Nat → Drive → Drive) : s.addressed a f = s := by
  simp [State.addressed, h]

/-- Settles O16: the three are addressed commands. -/
theorem invalidAddressIsIgnored : Obligations.InvalidAddressIsIgnored := fun _ _ h =>
  ⟨fun _ => congrArg Host.Outcome.next (State.addressed_of_invalid h _),
    congrArg Host.Outcome.next (State.addressed_of_invalid h _),
    congrArg Host.Outcome.next (State.addressed_of_invalid h _)⟩

/-! ### The command operations as a whole -/

/-- The command operations: the three addressed ones, and the 13 of UNSUPPORTED (rule R91). -/
theorem command_cases {i : Instr} (h : i.context = .command) :
    (∃ a f, i = .noteOn a f) ∨ (∃ a, i = .noteOff a) ∨ (∃ a, i = .reset a) ∨
      ∃ kind, i.unsupportedKind = some kind := by
  cases i with
  | noteOn a f => exact .inl ⟨a, f, rfl⟩
  | noteOff a => exact .inr (.inl ⟨a, rfl⟩)
  | reset a => exact .inr (.inr (.inl ⟨a, rfl⟩))
  | setLine | flush | tick | init | shiftBit | latch => cases h
  | unsupportedK0 | unsupportedK4 | unsupportedK5 | unsupportedK6 | unsupportedK7 | unsupportedK8
  | unsupportedK9 | unsupportedK10 | unsupportedK11 | unsupportedK12 | unsupportedK13
  | unsupportedK14 | unsupportedK15 => exact .inr (.inr (.inr ⟨_, rfl⟩))

theorem State.unsupported_of_halted {s : State} (h : s.halted = true) (kind : Nat) :
    s.unsupported kind = s := if_pos h

/-- Settles O19: each operation's rule for the halt (rule R219). -/
theorem haltedBlockDoesNothing : Obligations.HaltedBlockDoesNothing := by
  intro i s hh h
  rcases h with hc | rfl
  · rcases command_cases hc with ⟨a, f, rfl⟩ | ⟨a, rfl⟩ | ⟨a, rfl⟩ | ⟨kind, hk⟩
    · exact congrArg Host.Outcome.next (State.addressed_of_halted hh a _)
    · exact congrArg Host.Outcome.next (State.addressed_of_halted hh a _)
    · exact congrArg Host.Outcome.next (State.addressed_of_halted hh a _)
    · rw [exec_of_unsupportedKind hk, State.unsupported_of_halted hh]
  · exact congrArg Host.Outcome.next (State.tick_of_halted hh)

/-- Settles O18: an addressed command writes the drive table, UNSUPPORTED the diagnostics. -/
theorem commandsTouchOnlyTheDriveTable : Obligations.CommandsTouchOnlyTheDriveTable := by
  have of_addressed (s : State) (a : Addr) (f : Nat → Drive → Drive) :
      s.addressed a f = { s with
        drives := (s.addressed a f).drives
        unsupCount := (s.addressed a f).unsupCount
        diag := (s.addressed a f).diag } ∧
      (s.addressed a f).unsupCount = s.unsupCount ∧ (s.addressed a f).diag = s.diag := by
    rw [State.addressed_frame]
    exact ⟨rfl, rfl, rfl⟩
  intro i s hc
  rcases command_cases hc with ⟨a, f, rfl⟩ | ⟨a, rfl⟩ | ⟨a, rfl⟩ | ⟨kind, hk⟩
  · obtain ⟨hframe, hdiag⟩ := of_addressed s a (noteOnDrive s.cfg f)
    exact ⟨_, rfl, hframe, fun _ => hdiag, fun h => absurd rfl h⟩
  · obtain ⟨hframe, hdiag⟩ := of_addressed s a fun _ dr => dr.silence
    exact ⟨_, rfl, hframe, fun _ => hdiag, fun h => absurd rfl h⟩
  · obtain ⟨hframe, hdiag⟩ := of_addressed s a fun _ dr => resetDrive s.cfg dr
    exact ⟨_, rfl, hframe, fun _ => hdiag, fun h => absurd rfl h⟩
  · refine ⟨_, exec_of_unsupportedKind hk s, ?_, fun h => ?_, fun _ => ?_⟩
    · rw [State.unsupported_frame]
    · rw [hk] at h; cases h
    · rw [State.unsupported_frame]

/-! ### Outcome labels (rule R120) -/

theorem commandOutcome_unsupported {i : Instr} {kind : Nat} (h : i.unsupportedKind = some kind)
    (s : State) :
    commandOutcome i s = some (if s.halted then .halted else .unsupported kind) := by
  cases i with
  | noteOn | noteOff | reset | setLine | flush | tick | init | shiftBit | latch => cases h
  | unsupportedK0 | unsupportedK4 | unsupportedK5 | unsupportedK6 | unsupportedK7 | unsupportedK8
  | unsupportedK9 | unsupportedK10 | unsupportedK11 | unsupportedK12 | unsupportedK13
  | unsupportedK14 | unsupportedK15 => cases h; rfl

theorem commandOutcome_isSome_iff (i : Instr) (s : State) :
    (commandOutcome i s).isSome ↔ i.context = .command := by
  cases i with
  | noteOn | noteOff | reset => exact iff_of_true rfl rfl
  | setLine | flush | tick | init | shiftBit | latch =>
    exact iff_of_false Bool.false_ne_true (by simp [Instr.context])
  | unsupportedK0 | unsupportedK4 | unsupportedK5 | unsupportedK6 | unsupportedK7 | unsupportedK8
  | unsupportedK9 | unsupportedK10 | unsupportedK11 | unsupportedK12 | unsupportedK13
  | unsupportedK14 | unsupportedK15 => exact iff_of_true rfl rfl

theorem addressedOutcome_of_halted {s : State} (h : s.halted = true) (a : Addr)
    (errors : List Nat → List RangeError) : addressedOutcome s a errors = .halted := if_pos h

theorem addressedOutcome_of_invalid {s : State} {a : Addr} (hh : s.halted = false)
    (hr : resolve s.cfg a = none) (errors : List Nat → List RangeError) :
    addressedOutcome s a errors = .outOfRange [.address a] := by
  simp [addressedOutcome, hh, hr]

theorem addressedOutcome_of_resolve {s : State} {a : Addr} {ds : List Nat} (hh : s.halted = false)
    (hr : resolve s.cfg a = some ds) (errors : List Nat → List RangeError) :
    addressedOutcome s a errors = if errors ds = [] then .ok else .outOfRange (errors ds) := by
  simp [addressedOutcome, hh, hr]

theorem commandOutcome_of_halted {i : Instr} {s : State} (hc : i.context = .command)
    (hh : s.halted = true) : commandOutcome i s = some .halted := by
  rcases command_cases hc with ⟨a, f, rfl⟩ | ⟨a, rfl⟩ | ⟨a, rfl⟩ | ⟨kind, hk⟩
  · exact congrArg some (addressedOutcome_of_halted hh a _)
  · exact congrArg some (addressedOutcome_of_halted hh a _)
  · exact congrArg some (addressedOutcome_of_halted hh a _)
  · rw [commandOutcome_unsupported hk, if_pos hh]

theorem mem_rejectedTargets {c : Config} {ds : List Nat} {f : Nat} {e : RangeError} :
    e ∈ rejectedTargets c ds f ↔ ∃ d ∈ ds, acceptedPeriod c d f = none ∧ e = .frequency d f := by
  simp only [rejectedTargets, List.mem_map, List.mem_filter, Option.isNone_iff_eq_none, and_assoc]
  exact exists_congr fun d => and_congr_right fun _ => and_congr_right fun _ => eq_comm

theorem rejectedTargets_eq_nil_iff {c : Config} {ds : List Nat} {f : Nat} :
    rejectedTargets c ds f = [] ↔ ∀ d ∈ ds, acceptedPeriod c d f ≠ none := by
  simp [rejectedTargets]

/-- NOTE_ON's label at a valid address (rules R120, R214). -/
theorem commandOutcome_noteOn {s : State} {a : Addr} {ds : List Nat} (f : Nat)
    (hh : s.halted = false) (hr : resolve s.cfg a = some ds) :
    commandOutcome (.noteOn a f) s
      = some (if rejectedTargets s.cfg ds f = [] then .ok
          else .outOfRange (rejectedTargets s.cfg ds f)) :=
  congrArg some (addressedOutcome_of_resolve hh hr _)

/-- Settles O17: the labels by the rules for the halt, an Invalid address and a valid one. -/
theorem commandOutcomeLabels : Obligations.CommandOutcomeLabels := by
  refine ⟨fun i s => ⟨commandOutcome_isSome_iff i s, commandOutcome_of_halted⟩,
    fun s a f hh => ⟨fun hr => ?_, fun ds hr => ?_⟩,
    fun i kind s hk hh => by rw [commandOutcome_unsupported hk, hh]; rfl⟩
  · exact ⟨congrArg some (addressedOutcome_of_invalid hh hr _),
      congrArg some (addressedOutcome_of_invalid hh hr _),
      congrArg some (addressedOutcome_of_invalid hh hr _)⟩
  · rw [commandOutcome_noteOn f hh hr, ← rejectedTargets_eq_nil_iff]
    refine ⟨?_, fun ⟨d, hd, hrej⟩ => ?_, fun errs h e => ?_,
      congrArg some (addressedOutcome_of_resolve hh hr _),
      congrArg some (addressedOutcome_of_resolve hh hr _)⟩
    · split <;> simp [*]
    · rw [if_neg fun hnil => rejectedTargets_eq_nil_iff.1 hnil d hd hrej]
      exact ⟨_, rfl⟩
    · split at h <;> cases h
      exact mem_rejectedTargets

end Sys2Proof.Machine
end

-- ==== Proofs: the flush and the pins ====
section
/-! FLUSH, SHIFT_BIT and LATCH (spec/42_multiplexer_ops.md), and the failing FLUSH (spec/60_exceptions.md
rule R218). -/

namespace Sys2Proof.Machine

/-- Settles O34: the frame of a completed FLUSH, and the frame it loads into every segment. -/
theorem flushPresentsTheBank : Obligations.FlushPresentsTheBank := by
  rintro s ⟨-, -, hchain⟩ ho
  have hflush := State.flush_of_outOk ho hchain
  refine ⟨s.flush, rfl, by rw [hflush], by rw [hflush]; exact List.length_mapIdx, fun seg g hg => ?_⟩
  rw [hflush, List.getElem?_mapIdx] at hg
  obtain ⟨-, -, rfl⟩ := Option.map_eq_some_iff.1 hg
  exact ⟨rfl, rfl, s.frameOf_getLsbD seg (by decide),
    fun k hk => ⟨s.frameOf_getLsbD seg hk, s.frameOf_getLsbD seg hk⟩⟩

/-- Line 63 of the segment is sent first (rule R99). -/
theorem State.segmentEvents_eq (s : State) (seg : Nat) :
    s.segmentEvents seg
      = (List.range 64).flatMap fun n => bitEvents seg (s.lineAt (seg * 64 + (63 - n))) := by
  have horder : frameOrder = (List.range 64).map (63 - ·) := by decide
  rw [State.segmentEvents, horder, List.flatMap_map]

/-- Settles O35: a completed FLUSH appends its events, written out segment by segment. -/
theorem flushPinSequence : Obligations.FlushPinSequence := by
  rintro s - ho
  have hpins : s.flush.pins = s.pins ++ s.flushEvents := by rw [State.flush_frame ho]
  refine ⟨s.flush, rfl, ?_, by rw [hpins, List.length_append, State.flushEvents_length]⟩
  rw [hpins, State.flushEvents, ← List.append_assoc, funext s.segmentEvents_eq]
  rfl

/-- Settles O36: a FLUSH without the path is `raise OutputUnavailable` (rule R187). -/
theorem outputFailureHaltsTheBlock : Obligations.OutputFailureHaltsTheBlock := fun s ho =>
  ⟨s.flush, rfl, by rw [State.flush_of_not_outOk ho, State.raiseOutputUnavailable_eq],
    s.flush_sameSizes.drives,
    fun d => by
      rw [State.flush_of_not_outOk ho, State.raiseOutputUnavailable_eq, List.getElem?_map]⟩

/-- Settles O37: SHIFT_BIT modifies one segment by `Segment.shifted`. -/
theorem shiftBitMovesTheShiftStage : Obligations.ShiftBitMovesTheShiftStage := by
  rintro s seg v ⟨-, -, hchain⟩ hseg
  have hg : s.chain[seg]? = some (s.chain[seg]'(hchain ▸ hseg)) := List.getElem?_eq_getElem _
  refine ⟨s.shiftBit seg v, _, Segment.shifted v _, exec_shiftBit_of_lt v hseg, hg, ?_, ?_, ?_, rfl,
    ?_, fun k h1 hk => ?_⟩
  · rw [State.shiftBit_eq, List.getElem?_modify_eq, hg]
    rfl
  · rw [State.shiftBit_eq]
    rfl
  · intro e he
    rw [State.shiftBit_eq]
    exact List.getElem?_modify_ne _ _ (Ne.symm he)
  · exact (shiftIn_getLsbD _ v (by decide)).trans (if_pos rfl)
  · exact (shiftIn_getLsbD _ v hk).trans (if_neg (Nat.one_le_iff_ne_zero.1 h1))

/-- Settles O38: the guard of SHIFT_BIT. -/
theorem shiftBitOutsideTheChainStops : Obligations.ShiftBitOutsideTheChainStops := fun _ _ v =>
  exec_shiftBit_of_ge v

/-- Settles O39: LATCH maps every segment of the chain. -/
theorem latchPresentsTheShiftStage : Obligations.LatchPresentsTheShiftStage := fun s =>
  ⟨s.latch, rfl, by rw [State.latch_eq], s.latch_sameSizes.chain,
    fun seg g hg => by rw [State.latch_eq, List.getElem?_map, hg, Option.map_some]⟩

end Sys2Proof.Machine
end

-- ==== Proofs: one TICK ====
section
/-! What one TICK does to the drives, the lines and the outputs (spec/41_scheduler_tick.md). -/

namespace Sys2Proof.Machine

/-! ### What a sound state gives -/

section
variable {s : State} (hs : s.Sound)
include hs

theorem State.Sound.config : ConfigValid s.cfg := hs.1

theorem State.Sound.shaped : s.Shaped := hs.2.1

theorem State.Sound.drives_length : s.drives.length = s.cfg.nDrives := hs.shaped.1

theorem State.Sound.bank_length : s.bank.length = s.cfg.nLines := hs.shaped.2.1

theorem State.Sound.chain_length : s.chain.length = s.cfg.nSeg := hs.shaped.2.2

theorem State.Sound.driveSound {d : Nat} {dc : DriveConfig} {dr : Drive}
    (hc : s.cfg.drives[d]? = some dc) (hd : s.drives[d]? = some dr) : DriveSound s.cfg dc dr :=
  hs.2.2.1 d (List.getElem?_eq_some_iff.1 hc).1 dc hc dr hd

theorem State.Sound.clocks : s.ClocksIdle := hs.2.2.2.1

theorem State.Sound.silent (hh : s.halted = true) {dr : Drive} (hd : dr ∈ s.drives) :
    dr.tone = .silent := hs.2.2.2.2 hh dr hd

theorem State.Sound.exists_drive {d : Nat} {dc : DriveConfig} (hc : s.cfg.drives[d]? = some dc) :
    ∃ dr, s.drives[d]? = some dr :=
  ⟨_, List.getElem?_eq_getElem (hs.drives_length ▸ (List.getElem?_eq_some_iff.1 hc).1)⟩

theorem State.Sound.exists_config {d : Nat} {dr : Drive} (hd : s.drives[d]? = some dr) :
    ∃ dc, s.cfg.drives[d]? = some dc :=
  ⟨_, List.getElem?_eq_getElem
    (Nat.lt_of_lt_of_eq (List.getElem?_eq_some_iff.1 hd).1 hs.drives_length)⟩

end

/-! ### The drive loop, visiting every drive once in any order -/

/-- Every line of the line table belongs to a drive. -/
theorem mem_lineTable {c : Config} {i : Nat} :
    i ∈ c.lineTable ↔ ∃ (d : Nat) (dc : DriveConfig), c.drives[d]? = some dc ∧
      (i = dc.lineStep ∨ i = dc.lineDir) := by
  simp only [Config.lineTable, List.mem_flatMap, List.mem_pair]
  constructor
  · rintro ⟨dc, hmem, hi⟩
    obtain ⟨d, hd⟩ := List.mem_iff_getElem?.1 hmem
    exact ⟨d, dc, hd, hi⟩
  · rintro ⟨d, dc, hd, hi⟩
    exact ⟨dc, List.mem_of_getElem? hd, hi⟩

/-- Banks of one length whose lines agree are equal. -/
theorem State.bank_ext {s t : State} (hl : s.bank.length = t.bank.length)
    (h : ∀ i, s.lineAt i = t.lineAt i) : s.bank = t.bank := by
  refine List.ext_getElem hl fun i hi hi' => ?_
  simpa [State.lineAt, hi, hi'] using h i

/-- A tick of this drive writes a line: at a step event, or where the direction line disagrees (rules R153,
R155). -/
def State.DriveWrites (s : State) (dc : DriveConfig) (dr : Drive) : Prop :=
  dr.steps = true ∨ s.lineAt dc.lineDir ≠ dirLevel s.cfg (dr.ticked dc.maxPos).dir

/-- If the loop ends with DIRTY set, it was set before or a visited drive writes a line. -/
theorem State.tickDrives_dirty_cause {ds : List Nat} (hn : ds.Nodup) {s : State}
    (hv : ConfigValid s.cfg) (h : (s.tickDrives ds).dirty = true) :
    s.dirty = true ∨ ∃ d ∈ ds, ∃ dc dr, s.cfg.drives[d]? = some dc ∧ s.drives[d]? = some dr ∧
      s.DriveWrites dc dr := by
  induction ds generalizing s with
  | nil => exact .inl h
  | cons e ds ih =>
    obtain ⟨he, hn⟩ := List.nodup_cons.1 hn
    rcases ih hn (s := s.tickDrive e) (by simpa using hv) h with
      hdirty | ⟨d, hd, dc, dr, hc, hdr, hw⟩
    · cases hc : s.cfg.drives[e]? with
      | none => rw [State.tickDrive_none (.inl hc)] at hdirty; exact .inl hdirty
      | some ec =>
        cases hd : s.drives[e]? with
        | none => rw [State.tickDrive_none (.inr hd)] at hdirty; exact .inl hdirty
        | some er =>
          rw [State.tickDrive_dirty hv hc hd, Bool.or_eq_true, Bool.or_eq_true, bne_iff_ne,
            or_assoc] at hdirty
          exact hdirty.imp_right fun hw => ⟨e, List.mem_cons_self, ec, er, hc, hd, hw⟩
    · have hde : d ≠ e := ne_of_mem_of_not_mem hd he
      rw [State.tickDrive_cfg] at hc
      rw [State.tickDrive_drive, if_neg hde] at hdr
      have hline : (s.tickDrive e).lineAt dc.lineDir = s.lineAt dc.lineDir :=
        State.tickDrive_lineAt_other fun ec hec => by
          obtain ⟨-, -, h1, h2⟩ := config_lines_disjoint hv hc hec hde
          exact ⟨h1, h2⟩
      rw [State.DriveWrites, hline, State.tickDrive_cfg] at hw
      exact .inr ⟨d, List.mem_cons_of_mem _ hd, dc, dr, hc, hdr, hw⟩

theorem State.loop_line_other {s : State} (ds : List Nat) {i : Nat} (hi : i ∉ s.cfg.lineTable) :
    (s.tickDrives ds).lineAt i = s.lineAt i :=
  State.tickDrives_lineAt_other fun d _ dc hc =>
    ⟨fun h => hi (mem_lineTable.2 ⟨d, dc, hc, .inl h⟩),
      fun h => hi (mem_lineTable.2 ⟨d, dc, hc, .inr h⟩)⟩

section
variable {s : State} (hs : s.Sound) {ds : List Nat} (hp : ds.Perm (List.range s.cfg.nDrives))
include hp

theorem State.loop_nodup : ds.Nodup := hp.nodup_iff.2 List.nodup_range

theorem State.loop_mem {d : Nat} {dc : DriveConfig} (hc : s.cfg.drives[d]? = some dc) : d ∈ ds :=
  hp.mem_iff.2 (List.mem_range.2 (List.getElem?_eq_some_iff.1 hc).1)

theorem State.loop_drive {d : Nat} {dc : DriveConfig} (hc : s.cfg.drives[d]? = some dc) :
    (s.tickDrives ds).drives[d]? = (s.drives[d]?).map (Drive.ticked dc.maxPos) :=
  State.tickDrives_drive (State.loop_nodup hp) (State.loop_mem hp hc) hc

include hs

theorem State.loop_lines {d : Nat} {dc : DriveConfig} {dr : Drive}
    (hc : s.cfg.drives[d]? = some dc) (hd : s.drives[d]? = some dr) :
    (s.tickDrives ds).lineAt dc.lineStep = (s.lineAt dc.lineStep ^^ dr.steps) ∧
    (s.tickDrives ds).lineAt dc.lineDir = dirLevel s.cfg (dr.ticked dc.maxPos).dir :=
  State.tickDrives_lines (State.loop_nodup hp) (State.loop_mem hp hc) hs.config hs.bank_length hc hd

/-- The loop ends with DIRTY set exactly when it was set before or a line changed (rules R33, R156). -/
theorem State.loop_dirty_iff :
    (s.tickDrives ds).dirty = true ↔
      s.dirty = true ∨ ∃ i < s.cfg.nLines, (s.tickDrives ds).lineAt i ≠ s.lineAt i := by
  constructor
  · intro h
    refine (State.tickDrives_dirty_cause (State.loop_nodup hp) hs.config h).imp_right ?_
    rintro ⟨d, -, dc, dr, hc, hd, hw⟩
    obtain ⟨hstepLt, hdirLt, -⟩ := config_drive hs.config hc
    obtain ⟨hstep, hdir⟩ := State.loop_lines hs hp hc hd
    rcases hw with hsteps | hdis
    · exact ⟨dc.lineStep, hstepLt, by simp [hstep, hsteps]⟩
    · exact ⟨dc.lineDir, hdirLt, by rw [hdir]; exact hdis.symm⟩
  · intro h
    by_contra hclean
    obtain ⟨hdirty, hbank⟩ := State.tickDrives_clean (Bool.eq_false_iff.2 hclean)
    rcases h with h | ⟨i, -, hi⟩
    · rw [hdirty] at h; cases h
    · exact hi (State.lineAt_congr hbank i)

end

/-- Two sound states that agree on the configuration, the drives, the bank and DIRTY agree on them after a
loop each, in any two orders (rule R162). -/
theorem State.loop_determined {s s' : State} (hs : s.Sound) (hs' : s'.Sound) (hcfg : s'.cfg = s.cfg)
    (hdrives : s'.drives = s.drives) (hbank : s'.bank = s.bank) (hdirty : s'.dirty = s.dirty)
    {ds ds' : List Nat} (hp : ds.Perm (List.range s.cfg.nDrives))
    (hp' : ds'.Perm (List.range s'.cfg.nDrives)) :
    (s'.tickDrives ds').drives = (s.tickDrives ds).drives ∧
    (s'.tickDrives ds').bank = (s.tickDrives ds).bank ∧
    (s'.tickDrives ds').dirty = (s.tickDrives ds).dirty := by
  have hlines : ∀ i, (s'.tickDrives ds').lineAt i = (s.tickDrives ds).lineAt i := by
    intro i
    have hline : ∀ j, s'.lineAt j = s.lineAt j := State.lineAt_congr hbank
    by_cases hi : i ∈ s.cfg.lineTable
    · obtain ⟨d, dc, hc, hi⟩ := mem_lineTable.1 hi
      obtain ⟨dr, hd⟩ := hs.exists_drive hc
      obtain ⟨hstep, hdir⟩ := State.loop_lines hs hp hc hd
      obtain ⟨hstep', hdir'⟩ := State.loop_lines hs' hp' (hcfg ▸ hc) (hdrives ▸ hd)
      rcases hi with rfl | rfl
      · rw [hstep, hstep', hline]
      · rw [hdir, hdir', hcfg]
    · rw [State.loop_line_other ds hi, State.loop_line_other ds' (hcfg ▸ hi), hline]
  refine ⟨List.ext_getElem? fun d => ?_, State.bank_ext (by simp [hbank]) hlines, ?_⟩
  · cases hc : s.cfg.drives[d]? with
    | some dc => rw [State.loop_drive hp hc, State.loop_drive hp' (hcfg ▸ hc), hdrives]
    | none =>
      have hlen : s.drives.length ≤ d := by
        rw [hs.drives_length]; exact List.getElem?_eq_none_iff.1 hc
      rw [List.getElem?_eq_none (by simpa [hdrives] using hlen),
        List.getElem?_eq_none (by simpa using hlen)]
  · rw [Bool.eq_iff_iff, State.loop_dirty_iff hs hp, State.loop_dirty_iff hs' hp', hdirty, hcfg]
    simp only [hlines, State.lineAt_congr hbank]

/-- Settles O27: both loops give the same drives, bank and DIRTY, and write nothing else. -/
theorem tickOrderIsUnobservable : Obligations.TickOrderIsUnobservable := by
  intro s hs ds hp
  obtain ⟨hdrives, hbank, hdirty⟩ :=
    State.loop_determined hs hs rfl rfl rfl rfl (.refl _) hp
  rw [State.tickDrives_frame ds, hdrives, hbank, hdirty, ← State.tickDrives_frame]

/-! ### The whole TICK -/

/-- The loop of a TICK visits every drive once. -/
theorem State.ascending_perm (s : State) :
    (List.range s.cfg.nDrives).Perm (List.range s.cfg.nDrives) := .refl _

theorem State.flush_bank (s : State) : s.flush.bank = s.bank := by
  cases ho : s.outOk with
  | true => rw [State.flush_frame ho]
  | false => rw [State.flush_of_not_outOk ho, State.raiseOutputUnavailable_eq]

/-- The bank after a TICK is the loop's, whether or not a FLUSH follows or fails. -/
theorem State.tick_bank {s : State} (hh : s.halted = false) :
    s.tick.bank = (s.tickDrives (List.range s.cfg.nDrives)).bank := by
  rw [State.tick_of_running hh]
  split
  · exact State.flush_bank _
  · rfl

theorem State.tick_lineAt {s : State} (hh : s.halted = false) (i : Nat) :
    s.tick.lineAt i = (s.tickDrives (List.range s.cfg.nDrives)).lineAt i :=
  State.lineAt_congr (State.tick_bank hh) i

/-- The lines of one drive after a TICK (rules R153, R155). -/
theorem State.tick_lines {s : State} (hs : s.Sound) (hh : s.halted = false) {d : Nat} {dc : DriveConfig}
    {dr : Drive} (hc : s.cfg.drives[d]? = some dc) (hd : s.drives[d]? = some dr) :
    s.tick.lineAt dc.lineStep = (s.lineAt dc.lineStep ^^ dr.steps) ∧
    s.tick.lineAt dc.lineDir = dirLevel s.cfg (dr.ticked dc.maxPos).dir := by
  rw [State.tick_lineAt hh, State.tick_lineAt hh]
  exact State.loop_lines hs s.ascending_perm hc hd

/-- With the output path available a TICK's drive records are the loop's. -/
theorem State.tick_drive_of_outOk {s : State} (hh : s.halted = false) (ho : s.outOk = true) {d : Nat}
    {dc : DriveConfig} (hc : s.cfg.drives[d]? = some dc) :
    s.tick.drives[d]? = (s.drives[d]?).map (Drive.ticked dc.maxPos) := by
  obtain ⟨_, chain, added, rfl, ht, -⟩ := State.tick_of_outOk hh ho
  rw [ht]
  exact State.loop_drive s.ascending_perm hc

/-- Settles O22: the loop's lines, step event by step event. -/
theorem tickWritesStepAndDirectionLines : Obligations.TickWritesStepAndDirectionLines := by
  intro s hs hh
  refine ⟨s.tick, rfl, s.tick_sameSizes.bank, fun i hi => ?_, fun d dc dr hc hd => ?_⟩
  · rw [State.tick_lineAt hh, State.loop_line_other _ hi]
  · obtain ⟨hstep, hdir⟩ := State.tick_lines hs hh hc hd
    refine ⟨fun p hp hle => ?_, fun hquiet => ?_, fun dr' hd' => ?_⟩
    · rw [hstep, (Drive.steps_iff hp).2 hle, Bool.xor_true]
    · rw [hstep, (Drive.steps_eq_false_iff dr).2 hquiet, Bool.xor_false]
    · obtain ⟨tone, ht⟩ := State.tick_drive hh hc hd
      rw [hdir, ← Option.some.inj (ht.symm.trans hd')]

/-- The position after a step event, by the direction (rule R153). -/
theorem Drive.stepEvent_pos {c : Config} {dc : DriveConfig} {dr : Drive} (h : DriveSound c dc dr)
    (m : Nat) :
    (dr.dir = .fwd → (dr.stepEvent m).pos = dr.pos + 1) ∧
    (dr.dir = .rev → (dr.stepEvent m).pos + 1 = dr.pos) := by
  obtain ⟨-, hzero, -⟩ := h
  refine ⟨fun hdir => by simp [Drive.stepEvent, Drive.moved, hdir], fun hdir => ?_⟩
  have hpos : dr.pos ≠ 0 := fun h0 => by rw [hzero h0] at hdir; cases hdir
  simp only [Drive.stepEvent, Drive.moved, hdir]
  omega

/-- Below its period an active drive counts (rule R152). -/
theorem Drive.ticked_of_lt {dr : Drive} {p : Nat} (m : Nat) (h : dr.tone = .active p)
    (hlt : dr.cnt + 1 < p) : dr.ticked m = { dr with cnt := dr.cnt + 1 } := by
  rcases dr.ticked_cases m with ⟨hq, -⟩ | ⟨q, hq, -, heq⟩ | ⟨q, hq, hle, -⟩
  · rw [h] at hq; cases hq
  · exact heq
  · rw [h] at hq; cases hq; omega

/-- Settles O20: the frame of a TICK that can flush, and the three things it can be for a drive. -/
theorem tickAdvancesEachDrive : Obligations.TickAdvancesEachDrive := by
  intro s hs hh ho
  obtain ⟨_, chain, added, rfl, ht, -⟩ := State.tick_of_outOk hh ho
  refine ⟨s.tick, rfl, by rw [ht], s.tick_sameSizes.drives, fun d dc dr hc hd => ?_⟩
  rw [State.tick_drive_of_outOk hh ho hc, hd, Option.map_some]
  obtain ⟨hfwd, hrev⟩ := Drive.stepEvent_pos (hs.driveSound hc hd) dc.maxPos
  refine ⟨fun h => by rw [Drive.ticked_of_silent _ h], fun p hp hlt => ?_, fun p hp hle => ?_⟩
  · rw [Drive.ticked_of_lt _ hp hlt]
  · rw [Drive.ticked_of_steps _ ((Drive.steps_iff hp).2 hle)]
    exact ⟨_, rfl, hp, rfl, hfwd, hrev⟩

/-! ### What a TICK flushes -/

/-- A FLUSH pulses the latch once (rule R184). -/
theorem State.flushEvents_count_rclkRise (s : State) : s.flushEvents.count .rclkRise = 1 := by
  rw [State.flushEvents_eq, List.count_append, List.count_eq_zero.2 s.rclkRise_not_mem_frameBitEvents]
  rfl

/-- Settles O23: TICK flushes exactly when the loop ends with DIRTY set. -/
theorem tickFlushesAtMostOnce : Obligations.TickFlushesAtMostOnce := by
  intro s hs hh ho
  obtain ⟨looped, chain, added, hl, ht, hflush⟩ := State.tick_of_outOk hh ho
  have hdirty := State.loop_dirty_iff hs s.ascending_perm
  have hlines : ∀ i, s.tick.lineAt i = looped.lineAt i := fun i => hl ▸ State.tick_lineAt hh i
  rw [← hl] at hdirty
  simp only [← hlines] at hdirty
  refine ⟨s.tick, rfl, fun h => ?_, fun hclean hsame => ?_⟩
  · rcases hflush with ⟨hd, -⟩ | ⟨-, rfl, hchain⟩
    · rw [hdirty.2 h] at hd; cases hd
    · have hpins : s.tick.pins = s.pins ++ looped.flushEvents := by rw [ht]
      have hcfg : looped.cfg = s.cfg := by rw [hl]; simp
      refine ⟨?_, ?_, fun i hi => ?_⟩
      · rw [hpins, List.count_append, State.flushEvents_count_rclkRise]
      · rw [hpins, List.length_append, State.flushEvents_length, hcfg]
      · refine State.outAt_of_flushed (s := looped) ?_ ?_ ?_ (hcfg ▸ hi)
        · rw [ht, hl, State.tickDrives_chain, ← hl]
          exact hchain hs.chain_length
        · rw [ht]
        · rw [hcfg, hl, State.tickDrives_chain, hs.chain_length]
  · rcases hflush with ⟨-, rfl, rfl⟩ | ⟨hd, -⟩
    · rw [ht]
      exact ⟨List.append_nil _, rfl⟩
    · rcases hdirty.1 hd with h | ⟨i, hi, hne⟩
      · rw [hclean] at h; cases h
      · exact absurd (hsame i hi) hne

/-- Settles O24: no drive writes a line, so the loop ends clean and only the counters moved. -/
theorem quietTickMovesCountersOnly : Obligations.QuietTickMovesCountersOnly := by
  intro s hs hh hd hquiet
  have hclean : (s.tickDrives (List.range s.cfg.nDrives)).dirty = false := by
    rw [Bool.eq_false_iff]
    intro hdirty
    rcases State.tickDrives_dirty_cause List.nodup_range hs.config hdirty with
      h | ⟨d, -, dc, dr, hc, hdr, hw⟩
    · rw [hd] at h; cases h
    · obtain ⟨hcount, hagree⟩ := hquiet d dc dr hc hdr
      have hsteps : dr.steps = false := by
        rw [Drive.steps_eq_false_iff]
        cases ht : dr.tone with
        | silent => exact .inl rfl
        | active p => exact .inr ⟨p, rfl, hcount p ht⟩
      rw [State.DriveWrites, hsteps, (Drive.ticked_of_not_steps _ hsteps).2, hagree] at hw
      simp at hw
  obtain ⟨-, hbank⟩ := State.tickDrives_clean hclean
  have htick : s.tick = s.tickDrives (List.range s.cfg.nDrives) := by
    rw [State.tick_of_running hh, if_neg (by simp [hclean])]
  have hframe : s.tick = { s with drives := s.tick.drives } := by
    rw [htick]
    conv_lhs => rw [State.tickDrives_frame, hbank, hclean, ← hd]
  have hdrives : ∀ (d : Nat) (dr : Drive), s.drives[d]? = some dr →
      s.tick.drives[d]? = some (if dr.tone = .silent then dr else { dr with cnt := dr.cnt + 1 }) := by
    intro d dr hdr
    obtain ⟨dc, hc⟩ := hs.exists_config hdr
    rw [htick, State.loop_drive s.ascending_perm hc, hdr, Option.map_some]
    cases ht : dr.tone with
    | silent => rw [Drive.ticked_of_silent _ ht, if_pos rfl]
    | active p =>
      rw [Drive.ticked_of_lt _ ht ((hquiet d dc dr hc hdr).1 p ht), if_neg (by simp), ht]
  refine ⟨s.tick, rfl, hframe, hdrives, fun hsilent => ?_⟩
  have hsame : s.tick.drives = s.drives := by
    refine List.ext_getElem? fun d => ?_
    cases hdr : s.drives[d]? with
    | some dr => rw [hdrives d dr hdr, if_pos (hsilent dr (List.mem_of_getElem? hdr))]
    | none =>
      rw [List.getElem?_eq_none_iff] at hdr ⊢
      rwa [s.tick_sameSizes.drives]
  rw [hframe, hsame]

/-- Settles O28: a drive's record and lines after a TICK are given by its record and step line before. -/
theorem tickTreatsEachDriveAlone : Obligations.TickTreatsEachDriveAlone := by
  intro s s' t t' hs hs' hcfg hh hh' ho ho' ht ht' d dc hc hd hstep
  cases ht
  cases ht'
  obtain ⟨dr, hdr⟩ := hs.exists_drive hc
  have hc' : s'.cfg.drives[d]? = some dc := hcfg ▸ hc
  obtain ⟨hs1, hs2⟩ := State.tick_lines hs hh hc hdr
  obtain ⟨hs1', hs2'⟩ := State.tick_lines hs' hh' hc' (hd ▸ hdr)
  refine ⟨?_, by rw [hs1, hs1', hstep], by rw [hs2, hs2', hcfg]⟩
  rw [State.tick_drive_of_outOk hh ho hc, State.tick_drive_of_outOk hh' ho' hc', hd]

/-! ### A TICK that cannot flush -/

/-- A TICK with the output path gone moves no pin, and writes beside the loop's pieces only what the halt
writes (rules R151, R218). -/
theorem State.tick_frame_of_not_outOk {s : State} (hh : s.halted = false) (ho : s.outOk = false) :
    s.tick = { s with
      drives := s.tick.drives
      bank := s.tick.bank
      dirty := s.tick.dirty
      halted := s.tick.halted
      diag := s.tick.diag } := by
  obtain ⟨_, rfl, ⟨-, ht⟩ | ⟨-, ht⟩⟩ := State.tick_of_not_outOk hh ho
  · rw [ht, State.tickDrives_frame]
  · rw [ht, State.raiseOutputUnavailable_eq, State.tickDrives_frame]

/-- Settles O25: the loop is the one of the same TICK with the path available, and the halt follows it
exactly when it ends with DIRTY set. -/
theorem failingTickHaltsPrecisely : Obligations.FailingTickHaltsPrecisely := by
  intro s hs hh ho
  have hframe := State.tick_frame_of_not_outOk hh ho
  have hdirty := State.loop_dirty_iff hs s.ascending_perm
  simp only [← State.tick_lineAt hh] at hdirty
  obtain ⟨hdrives, hbank, -⟩ := State.loop_determined hs (s' := { s with outOk := true }) hs rfl rfl
    rfl rfl s.ascending_perm s.ascending_perm
  obtain ⟨_, chain, added, rfl, hu, -⟩ := State.tick_of_outOk (s := { s with outOk := true }) hh rfl
  have hdiag : (s.tickDrives (List.range s.cfg.nDrives)).diag = s.diag := by
    rw [State.tickDrives_frame]
  refine ⟨s.tick, _, rfl, congrArg Host.Outcome.next hu, ?_, by rw [hframe], by rw [hframe],
    by rw [hframe], by rw [hframe], by rw [hframe], by rw [hframe], by rw [hframe],
    s.tick_sameSizes.drives, ?_⟩
  · rw [State.tick_bank hh]
    exact hbank.symm
  rw [← hdirty]
  obtain ⟨_, rfl, ⟨hd, ht⟩ | ⟨hd, ht⟩⟩ := State.tick_of_not_outOk hh ho
  · have hrun : s.tick.halted = false := by rw [ht, State.tickDrives_halted, hh]
    refine ⟨by rw [hrun, hd], fun h => ?_, fun _ => ?_⟩
    · rw [hrun] at h; cases h
    · rw [ht]
      exact ⟨hd, hdiag, hdrives.symm⟩
  · rw [State.raiseOutputUnavailable_eq, hdiag] at ht
    rw [ht]
    refine ⟨by simp [hd], fun _ => ⟨hd, rfl, fun d => ?_⟩, fun h => by cases h⟩
    rw [List.getElem?_map, ← hdrives]

end Sys2Proof.Machine
end

-- ==== Proofs: what every step keeps ====
section
/-! What every operation and every step keeps: the sound state (spec/10_state.md rule R27,
spec/60_exceptions.md rule R218) and the whole outputs (spec/42_multiplexer_ops.md rule R190). -/

namespace Sys2Proof.Machine

/-! ### The drive invariants -/

theorem DriveSound.silenced {c : Config} {dc : DriveConfig} {dr : Drive} (h : DriveSound c dc dr) :
    DriveSound c dc { dr with tone := .silent } := by
  obtain ⟨h1, h2, h3, h4, -⟩ := h
  exact ⟨h1, h2, h3, h4, .inl rfl⟩

theorem DriveSound.retuned {c : Config} {dc : DriveConfig} {dr : Drive} (h : DriveSound c dc dr)
    {p : Nat} (hp : 1 ≤ p ∧ p ≤ c.periodMax) : DriveSound c dc { dr with tone := .active p } := by
  obtain ⟨h1, h2, h3, h4, -⟩ := h
  exact ⟨h1, h2, h3, h4, .inr hp⟩

/-- A drive after INIT or RESET (rules R46, R124). -/
theorem driveSound_initial {c : Config} (hv : ConfigValid c) {d : Nat} {dc : DriveConfig}
    (hc : c.drives[d]? = some dc) : DriveSound c dc (Drive.initial c) := by
  obtain ⟨-, -, hmax, -⟩ := config_drive hv hc
  obtain ⟨-, -, -, -, -, -, -, hdir, -, -, hperiod, -⟩ := hv
  exact ⟨Nat.zero_le _, fun _ => hdir, fun h => absurd h (Nat.ne_of_lt hmax), hperiod, .inl rfl⟩

theorem noteOnDrive_sound {c : Config} {dc : DriveConfig} {dr : Drive} (f d : Nat)
    (h : DriveSound c dc dr) : DriveSound c dc (noteOnDrive c f d dr) := by
  cases hp : acceptedPeriod c d f with
  | none => rwa [noteOnDrive_of_none hp]
  | some p => rw [noteOnDrive_of_some hp]; exact h.retuned (acceptedPeriod_bounds hp)

/-! ### The sound state -/

/-- A state is sound if it has the configuration and the sizes of a sound one and its drives, clocks and
silence in the halt are in order. -/
theorem State.Sound.of_sameSizes {s t : State} (hs : s.Sound) (hsz : s.SameSizes t)
    (hdrives : ∀ (d : Nat) (dc : DriveConfig) (dr : Drive), s.cfg.drives[d]? = some dc →
      t.drives[d]? = some dr → DriveSound s.cfg dc dr)
    (hclocks : t.ClocksIdle) (hsilent : t.halted = true → ∀ dr ∈ t.drives, dr.tone = .silent) :
    t.Sound := by
  refine ⟨hsz.cfg ▸ hs.config, hsz.shaped hs.shaped, ?_, hclocks, hsilent⟩
  intro d _ dc hc dr hd
  rw [hsz.cfg] at hc ⊢
  exact hdrives d dc dr hc hd

/-- Operations that write neither the drives nor the chain nor HALTED keep a state sound. -/
theorem State.Sound.congr {s t : State} (hs : s.Sound) (hsz : s.SameSizes t)
    (hdrives : t.drives = s.drives) (hchain : t.chain = s.chain) (hhalted : t.halted = s.halted) :
    t.Sound := by
  refine hs.of_sameSizes hsz (fun d dc dr hc hd => hs.driveSound hc (hdrives ▸ hd)) ?_ ?_
  · rw [State.ClocksIdle, hchain]; exact hs.clocks
  · rw [hhalted, hdrives]; exact fun hh dr => hs.silent hh

section
variable {s : State} (hs : s.Sound)
include hs

theorem State.Sound.addressed (a : Addr) {f : Nat → Drive → Drive}
    (hf : ∀ (d : Nat) (dc : DriveConfig) (dr : Drive), s.cfg.drives[d]? = some dc →
      DriveSound s.cfg dc dr → DriveSound s.cfg dc (f d dr)) : (s.addressed a f).Sound := by
  refine hs.of_sameSizes (s.addressed_sameSizes a f) (fun d dc dr' hc hd' => ?_) ?_ fun hh => ?_
  · obtain ⟨dr, hd⟩ := hs.exists_drive hc
    rcases State.addressed_drive_cases hd hd' with rfl | rfl
    · exact hs.driveSound hc hd
    · exact hf d dc dr hc (hs.driveSound hc hd)
  · rw [State.addressed_frame]; exact hs.clocks
  · rw [State.addressed_halted] at hh
    rw [State.addressed_of_halted hh]
    exact fun dr => hs.silent hh

theorem State.Sound.raiseOutputUnavailable : s.raiseOutputUnavailable.Sound := by
  refine hs.of_sameSizes s.raiseOutputUnavailable_sameSizes (fun d dc dr' hc hd => ?_) ?_ ?_
  · rw [State.raiseOutputUnavailable_eq, List.getElem?_map] at hd
    obtain ⟨dr, hdr, rfl⟩ := Option.map_eq_some_iff.1 hd
    exact (hs.driveSound hc hdr).silenced
  · rw [State.raiseOutputUnavailable_eq]; exact hs.clocks
  · rw [State.raiseOutputUnavailable_eq]
    intro _ dr' hd
    obtain ⟨dr, -, rfl⟩ := List.mem_map.1 hd
    rfl

theorem State.Sound.flush : s.flush.Sound := by
  cases ho : s.outOk with
  | false => rw [State.flush_of_not_outOk ho]; exact hs.raiseOutputUnavailable
  | true =>
    have hflush := State.flush_of_outOk ho hs.chain_length
    refine hs.of_sameSizes s.flush_sameSizes ?_ ?_ ?_
    · rw [hflush]; exact fun d dc dr => hs.driveSound
    · rw [hflush]
      intro g hg
      obtain ⟨seg, _, rfl⟩ := List.mem_mapIdx.1 hg
      exact ⟨rfl, rfl⟩
    · rw [hflush]; exact fun hh dr => hs.silent hh

theorem State.Sound.tickDrives (hh : s.halted = false) {ds : List Nat}
    (hp : ds.Perm (List.range s.cfg.nDrives)) : (s.tickDrives ds).Sound := by
  refine hs.of_sameSizes (s.tickDrives_sameSizes ds) (fun d dc dr' hc hd => ?_) ?_ fun hh' => ?_
  · rw [State.loop_drive hp hc] at hd
    obtain ⟨dr, hdr, rfl⟩ := Option.map_eq_some_iff.1 hd
    obtain ⟨-, -, hmax, -⟩ := config_drive hs.config hc
    exact Drive.ticked_sound hmax (hs.driveSound hc hdr)
  · rw [State.ClocksIdle, State.tickDrives_chain]; exact hs.clocks
  · rw [State.tickDrives_halted, hh] at hh'; cases hh'

theorem State.Sound.tick : s.tick.Sound := by
  cases hh : s.halted with
  | true => rwa [State.tick_of_halted hh]
  | false =>
    have hloop := hs.tickDrives hh s.ascending_perm
    rw [State.tick_of_running hh]
    split
    · exact hloop.flush
    · exact hloop

theorem State.Sound.shiftBit (seg : Nat) (v : Bool) : (s.shiftBit seg v).Sound := by
  refine hs.of_sameSizes (s.shiftBit_sameSizes seg v) ?_ ?_ ?_
  · rw [State.shiftBit_eq]; exact fun d dc dr => hs.driveSound
  · rw [State.shiftBit_eq]
    intro g hg
    obtain ⟨j, hj⟩ := List.mem_iff_getElem?.1 hg
    obtain ⟨g₀, hg₀, rfl⟩ := Option.map_eq_some_iff.1 ((List.getElem?_modify ..).symm.trans hj)
    obtain ⟨-, hrclk⟩ := hs.clocks g₀ (List.mem_of_getElem? hg₀)
    split
    · exact ⟨rfl, hrclk⟩
    · exact hs.clocks g₀ (List.mem_of_getElem? hg₀)
  · rw [State.shiftBit_eq]; exact fun hh dr => hs.silent hh

theorem State.Sound.latch : s.latch.Sound := by
  refine hs.of_sameSizes s.latch_sameSizes ?_ ?_ ?_
  · rw [State.latch_eq]; exact fun d dc dr => hs.driveSound
  · rw [State.latch_eq]
    intro g' hg
    obtain ⟨g, hmem, rfl⟩ := List.mem_map.1 hg
    obtain ⟨hsrclk, -⟩ := hs.clocks g hmem
    exact ⟨hsrclk, rfl⟩
  · rw [State.latch_eq]; exact fun hh dr => hs.silent hh

end

/-- The state after INIT of a valid configuration is sound (rule R46). -/
theorem State.afterInit_sound {c : Config} (hv : ConfigValid c) (draw : Nat) (outOk : Bool)
    (inputs : List Input) : (State.afterInit c draw outOk inputs).Sound := by
  have hbank : c.bankInit.length = c.nLines := by
    obtain ⟨-, -, -, -, -, -, -, -, -, -, -, -, hb⟩ := hv
    exact hb
  refine ⟨hv, ⟨List.length_replicate, hbank, by simp [State.afterInit]⟩, ?_, ?_, fun h => by cases h⟩
  · intro d _ dc hc dr hd
    rw [List.eq_of_mem_replicate (List.mem_of_getElem? hd)]
    exact driveSound_initial hv hc
  · intro g hg
    obtain ⟨seg, -, rfl⟩ := List.mem_map.1 hg
    exact ⟨rfl, rfl⟩

/-- Every operation keeps a state sound. -/
theorem exec_sound {i : Instr} {s t : State} (hs : s.Sound) (h : exec i s = .next t) : t.Sound := by
  rcases exec_cases h with ⟨a, f, -, rfl⟩ | ⟨a, -, rfl⟩ | ⟨a, -, rfl⟩ | ⟨kind, -, rfl⟩ |
    ⟨k, v, -, rfl⟩ | ⟨-, rfl⟩ | ⟨-, rfl⟩ | ⟨-, hv, rfl⟩ | ⟨k, v, -, -, rfl⟩ | ⟨-, rfl⟩
  · exact hs.addressed a fun d _ _ _ => noteOnDrive_sound f d
  · exact hs.addressed a fun _ _ _ _ => DriveSound.silenced
  · exact hs.addressed a fun _ _ _ hc _ => driveSound_initial hs.config hc
  · exact hs.congr (s.unsupported_sameSizes kind) (by rw [State.unsupported_frame])
      (by rw [State.unsupported_frame]) (by rw [State.unsupported_frame])
  · exact hs.congr (s.setLine_sameSizes k v) (by simp) (by simp) (by simp)
  · exact hs.flush
  · exact hs.tick
  · exact State.afterInit_sound hv _ _ _
  · exact hs.shiftBit k v
  · exact hs.latch

theorem State.Sound.withInputs {s : State} (hs : s.Sound) (rest : List Input) :
    (s.withInputs rest).Sound := hs

/-- Settles O52: an operation keeps the state sound, and the other inputs write nothing soundness reads. -/
theorem stepKeepsTheBlockSound : Obligations.StepKeepsTheBlockSound := by
  intro s t hs h
  rcases step_cases h with ⟨-, rfl⟩ | ⟨level, rest, -, rfl⟩ | ⟨e, logged, rest, -, rfl⟩ |
    ⟨w, rest, -, rfl⟩ | ⟨w, rest, i, -, -, hx⟩
  · exact hs
  · exact hs
  · rw [State.frameDropped_frame]; exact hs
  · exact hs.withInputs rest
  · exact exec_sound (hs.withInputs rest) hx

/-! ### The whole outputs -/

/-- Operations that write neither the chain, nor the pins, nor the bank, nor DIRTY keep the outputs
whole. -/
theorem State.OutputsWhole.congr {s t : State} (hw : s.OutputsWhole) (hcfg : t.cfg = s.cfg)
    (hchain : t.chain = s.chain) (hpins : t.pins = s.pins) (hbank : t.bank = s.bank)
    (hdirty : t.dirty = s.dirty) : t.OutputsWhole := by
  intro hlatched
  rw [hpins] at hlatched
  rw [hcfg, hchain, hdirty]
  simp only [State.outAt_congr hchain, State.lineAt_congr hbank]
  exact hw hlatched

/-- A write to the bank keeps the outputs whole, since it sets DIRTY (rule R33). -/
theorem State.OutputsWhole.of_dirty {s t : State} (hw : s.OutputsWhole) (hchain : t.chain = s.chain)
    (hpins : t.pins = s.pins) (hdirty : t.dirty = true) : t.OutputsWhole := by
  intro hlatched
  rw [hpins] at hlatched
  rw [hchain, hdirty]
  exact ⟨(hw hlatched).1, fun h => by cases h⟩

theorem State.OutputsWhole.setLine {s : State} (hw : s.OutputsWhole) (i : Nat) (v : Bool) :
    (s.setLine i v).OutputsWhole := by
  rcases Nat.lt_or_ge i s.cfg.nLines with hi | hi
  · exact hw.of_dirty (s.setLine_chain i v) (s.setLine_pins i v) (by simp [State.setLine_dirty, hi])
  · rwa [State.setLine_of_ge hi]

/-- After a FLUSH that completes every output shows its line (rules R39, R183). -/
theorem State.flush_outAt {s : State} (ho : s.outOk = true) (hc : s.chain.length = s.cfg.nSeg) {i : Nat}
    (hi : i < s.cfg.nLines) : s.flush.outAt i = s.flush.lineAt i :=
  State.outAt_of_flushed (by rw [State.flush_of_outOk ho hc]) s.flush_bank hc hi

theorem State.OutputsWhole.flush {s : State} (hc : s.chain.length = s.cfg.nSeg)
    (hw : s.OutputsWhole) : s.flush.OutputsWhole := by
  cases ho : s.outOk with
  | true =>
    refine fun _ => ⟨fun g hg => ?_, fun _ i hi => ?_⟩
    · rw [State.flush_of_outOk ho hc] at hg
      obtain ⟨seg, _, rfl⟩ := List.mem_mapIdx.1 hg
      rfl
    · rw [s.flush_sameSizes.cfg] at hi
      exact State.flush_outAt ho hc hi
  | false =>
    rw [State.flush_of_not_outOk ho, State.raiseOutputUnavailable_eq]
    exact hw.congr rfl rfl rfl rfl rfl

/-- The loop wrote no line, or left DIRTY set (rule R33). -/
theorem State.OutputsWhole.tickDrives {s : State} (hw : s.OutputsWhole) (ds : List Nat) :
    (s.tickDrives ds).OutputsWhole := by
  cases hd : (s.tickDrives ds).dirty with
  | true => exact hw.of_dirty (s.tickDrives_chain ds) (s.tickDrives_pins ds) hd
  | false =>
    obtain ⟨hclean, hbank⟩ := State.tickDrives_clean hd
    exact hw.congr (s.tickDrives_cfg ds) (s.tickDrives_chain ds) (s.tickDrives_pins ds) hbank
      (hd.trans hclean.symm)

theorem State.OutputsWhole.tick {s : State} (hc : s.chain.length = s.cfg.nSeg)
    (hw : s.OutputsWhole) : s.tick.OutputsWhole := by
  cases hh : s.halted with
  | true => rwa [State.tick_of_halted hh]
  | false =>
    have hloop := hw.tickDrives (List.range s.cfg.nDrives)
    rw [State.tick_of_running hh]
    split
    · exact hloop.flush (by simpa using hc)
    · exact hloop

/-- INIT empties the trace, so no FLUSH has completed since (rule R46). -/
theorem State.afterInit_outputsWhole (c : Config) (draw : Nat) (outOk : Bool) (inputs : List Input) :
    (State.afterInit c draw outOk inputs).OutputsWhole := fun h => by cases h

/-- The operations that arrive on a port keep the outputs whole; SHIFT_BIT and LATCH alone need not. -/
theorem exec_outputsWhole {i : Instr} {s t : State} (hport : i.port ≠ none)
    (hc : s.chain.length = s.cfg.nSeg) (hw : s.OutputsWhole) (h : exec i s = .next t) :
    t.OutputsWhole := by
  have of_addressed (a : Addr) (f : Nat → Drive → Drive) : (s.addressed a f).OutputsWhole := by
    rw [State.addressed_frame]; exact hw.congr rfl rfl rfl rfl rfl
  rcases exec_cases h with ⟨a, f, -, rfl⟩ | ⟨a, -, rfl⟩ | ⟨a, -, rfl⟩ | ⟨kind, -, rfl⟩ |
    ⟨k, v, -, rfl⟩ | ⟨-, rfl⟩ | ⟨-, rfl⟩ | ⟨-, -, rfl⟩ | ⟨k, v, hi, -, -⟩ | ⟨hi, -⟩
  · exact of_addressed a _
  · exact of_addressed a _
  · exact of_addressed a _
  · rw [State.unsupported_frame]; exact hw.congr rfl rfl rfl rfl rfl
  · exact hw.setLine k v
  · exact hw.flush hc
  · exact hw.tick hc
  · exact State.afterInit_outputsWhole _ _ _ _
  · exact absurd (congrArg Instr.port hi) hport
  · exact absurd (congrArg Instr.port hi) hport

theorem State.OutputsWhole.withInputs {s : State} (hw : s.OutputsWhole) (rest : List Input) :
    (s.withInputs rest).OutputsWhole := hw.congr rfl rfl rfl rfl rfl

/-- Settles O53: a step performs an operation that has a port, or writes nothing the outputs depend on. -/
theorem stepKeepsOutputsWhole : Obligations.StepKeepsOutputsWhole := by
  intro s t hs hw h
  rcases step_cases h with ⟨-, rfl⟩ | ⟨level, rest, -, rfl⟩ | ⟨e, logged, rest, -, rfl⟩ |
    ⟨w, rest, -, rfl⟩ | ⟨w, rest, i, -, hdecode, hx⟩
  · exact hw
  · exact hw.congr rfl rfl rfl rfl rfl
  · rw [State.frameDropped_frame]; exact hw.congr rfl rfl rfl rfl rfl
  · exact hw.withInputs rest
  · exact exec_outputsWhole (decode_has_port hdecode) (hs.withInputs rest).chain_length
      (hw.withInputs rest) hx

/-- Settles O26: a TICK with the path available ends clean, and one without it that does not halt had
nothing to flush; the outputs are whole in both. -/
theorem tickLeavesOutputsInStep : Obligations.TickLeavesOutputsInStep := by
  intro s t hs hw ht hrun
  cases ht
  have hh : s.halted = false := by
    by_contra hh
    rw [Bool.not_eq_false] at hh
    rw [State.tick_of_halted hh, hh] at hrun
    cases hrun
  have hclean : s.tick.dirty = false := by
    cases ho : s.outOk with
    | true =>
      obtain ⟨_, chain, added, rfl, ht, -⟩ := State.tick_of_outOk hh ho
      rw [ht]
    | false =>
      obtain ⟨_, rfl, ⟨hd, ht⟩ | ⟨-, ht⟩⟩ := State.tick_of_not_outOk hh ho
      · rwa [ht]
      · rw [ht, State.raiseOutputUnavailable_eq] at hrun; cases hrun
  refine ⟨hclean, fun d dc dr' hc hd' => ?_,
    fun hlatched => (hw.tick hs.chain_length hlatched).2 hclean⟩
  rw [s.tick_sameSizes.cfg] at hc ⊢
  obtain ⟨dr, hd⟩ := hs.exists_drive hc
  obtain ⟨tone, ht⟩ := State.tick_drive hh hc hd
  rw [(State.tick_lines hs hh hc hd).2, ← Option.some.inj (ht.symm.trans hd')]

/-! ### Outputs change all together -/

/-- Every output as before, or every output at its line. -/
def State.OutputsTogether (s t : State) : Prop :=
  (∀ i < s.cfg.nLines, t.outAt i = s.outAt i) ∨ ∀ i < s.cfg.nLines, t.outAt i = t.lineAt i

theorem State.OutputsTogether.of_chain {s t : State} (h : t.chain = s.chain) : s.OutputsTogether t :=
  .inl fun i _ => State.outAt_congr h i

theorem State.flush_outputsTogether {s : State} (hc : s.chain.length = s.cfg.nSeg) :
    s.OutputsTogether s.flush := by
  cases ho : s.outOk with
  | true => exact .inr fun i => State.flush_outAt ho hc
  | false => exact .of_chain (by rw [State.flush_of_not_outOk ho, State.raiseOutputUnavailable_eq])

theorem State.tick_outputsTogether {s : State} (hc : s.chain.length = s.cfg.nSeg) :
    s.OutputsTogether s.tick := by
  cases hh : s.halted with
  | true => exact .of_chain (by rw [State.tick_of_halted hh])
  | false =>
    rw [State.tick_of_running hh]
    have hchain := s.tickDrives_chain (List.range s.cfg.nDrives)
    split
    · have hflush := State.flush_outputsTogether
        (s := s.tickDrives (List.range s.cfg.nDrives)) (by simpa using hc)
      simpa only [State.OutputsTogether, State.tickDrives_cfg, State.outAt_congr hchain] using hflush
    · exact .of_chain hchain

theorem exec_outputsTogether {i : Instr} {s t : State} (hport : i.port ≠ none)
    (hc : s.chain.length = s.cfg.nSeg) (h : exec i s = .next t) :
    i = .init ∨ s.OutputsTogether t := by
  rcases exec_cases h with ⟨a, f, -, rfl⟩ | ⟨a, -, rfl⟩ | ⟨a, -, rfl⟩ | ⟨kind, -, rfl⟩ |
    ⟨k, v, -, rfl⟩ | ⟨-, rfl⟩ | ⟨-, rfl⟩ | ⟨hi, -, -⟩ | ⟨k, v, hi, -, -⟩ | ⟨hi, -⟩
  · exact .inr (.of_chain (by rw [State.addressed_frame]))
  · exact .inr (.of_chain (by rw [State.addressed_frame]))
  · exact .inr (.of_chain (by rw [State.addressed_frame]))
  · exact .inr (.of_chain (by rw [State.unsupported_frame]))
  · exact .inr (.of_chain (s.setLine_chain k v))
  · exact .inr (State.flush_outputsTogether hc)
  · exact .inr (State.tick_outputsTogether hc)
  · exact .inl hi
  · exact absurd (congrArg Instr.port hi) hport
  · exact absurd (congrArg Instr.port hi) hport

/-- Settles O40: of the operations a step can perform only FLUSH, TICK's FLUSH and INIT write the
outputs. -/
theorem outputsChangeOnlyAllTogether : Obligations.OutputsChangeOnlyAllTogether := by
  intro s t hs h
  rw [← or_assoc, or_comm]
  change _ ∨ s.OutputsTogether t
  rcases step_cases h with ⟨-, rfl⟩ | ⟨level, rest, -, rfl⟩ | ⟨e, logged, rest, -, rfl⟩ |
    ⟨w, rest, -, rfl⟩ | ⟨w, rest, i, hin, hdecode, hx⟩
  · exact .inr (.of_chain rfl)
  · exact .inr (.of_chain rfl)
  · exact .inr (.of_chain (by rw [State.frameDropped_frame]; rfl))
  · exact .inr (.of_chain rfl)
  · rcases exec_outputsTogether (decode_has_port hdecode) (hs.withInputs rest).chain_length hx with
      rfl | htogether
    · exact .inl ⟨1, rest, by rw [hin, decode_init hdecode]⟩
    · exact .inr htogether

/-! ### The flags (rule R31) -/

/-- HALTED after a FLUSH or a TICK: as before, or set for want of the output path (rule R34). -/
def State.HaltsWithoutPath (s t : State) : Prop :=
  t.halted = s.halted ∨ (s.outOk = false ∧ t.halted = true)

theorem State.flush_haltsWithoutPath (s : State) : s.HaltsWithoutPath s.flush := by
  cases ho : s.outOk with
  | true => exact .inl (by rw [State.flush_frame ho])
  | false => exact .inr ⟨ho, by rw [State.flush_of_not_outOk ho, State.raiseOutputUnavailable_eq]⟩

theorem State.tick_haltsWithoutPath (s : State) : s.HaltsWithoutPath s.tick := by
  cases hh : s.halted with
  | true => exact .inl (by rw [State.tick_of_halted hh])
  | false =>
    rw [State.tick_of_running hh]
    split
    · have hflush := (s.tickDrives (List.range s.cfg.nDrives)).flush_haltsWithoutPath
      simpa only [State.HaltsWithoutPath, State.tickDrives_halted, State.tickDrives_outOk] using hflush
    · exact .inl (s.tickDrives_halted _)

/-- What an operation can make of HALTED. -/
theorem exec_halted_cases {i : Instr} {s t : State} (h : exec i s = .next t) :
    ((i = .flush ∨ i = .tick) ∧ s.HaltsWithoutPath t) ∨ (i = .init ∧ t.halted = false) ∨
      t.halted = s.halted := by
  have same {u : State} (hu : u.halted = s.halted) {p q : Prop} : p ∨ q ∨ u.halted = s.halted :=
    .inr (.inr hu)
  rcases exec_cases h with ⟨a, f, -, rfl⟩ | ⟨a, -, rfl⟩ | ⟨a, -, rfl⟩ | ⟨kind, -, rfl⟩ |
    ⟨k, v, -, rfl⟩ | ⟨hi, rfl⟩ | ⟨hi, rfl⟩ | ⟨hi, -, rfl⟩ | ⟨k, v, -, -, rfl⟩ | ⟨-, rfl⟩
  · exact same (s.addressed_halted a _)
  · exact same (s.addressed_halted a _)
  · exact same (s.addressed_halted a _)
  · exact same (by rw [State.unsupported_frame])
  · exact same (s.setLine_halted k v)
  · exact .inl ⟨.inl hi, s.flush_haltsWithoutPath⟩
  · exact .inl ⟨.inr hi, s.tick_haltsWithoutPath⟩
  · exact .inr (.inl ⟨hi, rfl⟩)
  · exact same (by rw [State.shiftBit_eq])
  · exact same (by rw [State.latch_eq])

theorem exec_init_next {s t : State} (h : exec .init s = .next t) : t = s.initialise := by
  by_cases hv : ConfigValid s.cfg
  · rw [exec_init_of_valid hv] at h; exact (Host.Outcome.next.inj h).symm
  · rw [exec_init_of_invalid hv] at h; cases h

/-- With the output path available a TICK ends clean, unless the halt left a dirty bank as it was. -/
theorem State.tick_dirty_of_outOk {s : State} (ho : s.outOk = true) (hd : s.dirty = false) :
    s.tick.dirty = false := by
  cases hh : s.halted with
  | true => rwa [State.tick_of_halted hh]
  | false =>
    obtain ⟨_, chain, added, rfl, ht, -⟩ := State.tick_of_outOk hh ho
    rw [ht]

/-- What can set DIRTY: SET_LINE inside the bank, a TICK that fails to flush, and INIT (rules R31, R33). -/
theorem exec_dirty_set {i : Instr} {s t : State} (hd : s.dirty = false) (ht : t.dirty = true)
    (h : exec i s = .next t) :
    (∃ k v, i = .setLine k v ∧ k < s.cfg.nLines) ∨ (i = .tick ∧ s.outOk = false) ∨
      (i = .init ∧ s.cfg.initDirty = true) := by
  have unset {u : State} {p : Prop} (hu : u.dirty = false) (ht : u.dirty = true) : p := by
    rw [hu] at ht; cases ht
  rcases exec_cases h with ⟨a, f, -, rfl⟩ | ⟨a, -, rfl⟩ | ⟨a, -, rfl⟩ | ⟨kind, -, rfl⟩ |
    ⟨k, v, hi, rfl⟩ | ⟨-, rfl⟩ | ⟨hi, rfl⟩ | ⟨hi, -, rfl⟩ | ⟨k, v, -, -, rfl⟩ | ⟨-, rfl⟩
  · exact unset ((s.addressed_dirty a _).trans hd) ht
  · exact unset ((s.addressed_dirty a _).trans hd) ht
  · exact unset ((s.addressed_dirty a _).trans hd) ht
  · exact unset ((s.unsupported_dirty kind).trans hd) ht
  · rw [State.setLine_dirty, hd, Bool.or_false, decide_eq_true_iff] at ht
    exact .inl ⟨k, v, hi, ht⟩
  · cases ho : s.outOk with
    | true => exact unset (State.flush_clears_dirty ho) ht
    | false => exact unset ((State.flush_keeps_dirty ho).trans hd) ht
  · cases ho : s.outOk with
    | true => exact unset (State.tick_dirty_of_outOk ho hd) ht
    | false => exact .inr (.inl ⟨hi, rfl⟩)
  · exact .inr (.inr ⟨hi, ht⟩)
  · rw [State.shiftBit_eq] at ht; exact unset hd ht
  · rw [State.latch_eq] at ht; exact unset hd ht

/-- TONE of a drive after a FLUSH or a TICK: as before, or silenced by the halt (rules R31, R218). -/
def State.SilencesByHalt (s t : State) : Prop :=
  t.drives.map (·.tone) = s.drives.map (·.tone) ∨
    (s.outOk = false ∧ t.halted = true ∧ ∀ dr ∈ t.drives, dr.tone = .silent)

theorem State.flush_silencesByHalt (s : State) : s.SilencesByHalt s.flush := by
  cases ho : s.outOk with
  | true => exact .inl (by rw [State.flush_frame ho])
  | false =>
    rw [State.flush_of_not_outOk ho, State.raiseOutputUnavailable_eq]
    refine .inr ⟨ho, rfl, fun dr' hd => ?_⟩
    obtain ⟨dr, -, rfl⟩ := List.mem_map.1 hd
    rfl

theorem State.tick_silencesByHalt (s : State) : s.SilencesByHalt s.tick := by
  cases hh : s.halted with
  | true => exact .inl (by rw [State.tick_of_halted hh])
  | false =>
    rw [State.tick_of_running hh]
    split
    · have hflush := (s.tickDrives (List.range s.cfg.nDrives)).flush_silencesByHalt
      simpa only [State.SilencesByHalt, State.tickDrives_tones, State.tickDrives_outOk] using hflush
    · exact .inl (State.tickDrives_tones _ s)

/-- A drive's TONE before and after an operation: kept, retuned by a NOTE_ON it accepts, or silenced by one
of the rules of the table of flags (rule R31). -/
theorem exec_tone_cases {i : Instr} {s t : State} (h : exec i s = .next t) {d : Nat} {dr dr' : Drive}
    (hd : s.drives[d]? = some dr) (hd' : t.drives[d]? = some dr') :
    dr'.tone = dr.tone ∨
    (∃ a f p, i = .noteOn a f ∧ acceptedPeriod s.cfg d f = some p ∧ dr'.tone = .active p) ∨
    (dr'.tone = .silent ∧ ((∃ a, i = .noteOff a ∨ i = .reset a) ∨ i = .init ∨
      ((i = .flush ∨ i = .tick) ∧ s.outOk = false ∧ t.halted = true))) := by
  have kept {u : State} (hu : u.drives.map (·.tone) = s.drives.map (·.tone))
      (hdu : u.drives[d]? = some dr') : dr'.tone = dr.tone := by
    have := congrArg (·[d]?) hu
    simpa [List.getElem?_map, hd, hdu] using this
  have of_halt {u : State} (hu : s.SilencesByHalt u) (hdu : u.drives[d]? = some dr') :
      dr'.tone = dr.tone ∨ dr'.tone = .silent ∧ s.outOk = false ∧ u.halted = true :=
    hu.imp (kept · hdu) fun ⟨ho, hh, hall⟩ => ⟨hall dr' (List.mem_of_getElem? hdu), ho, hh⟩
  rcases exec_cases h with ⟨a, f, hi, rfl⟩ | ⟨a, hi, rfl⟩ | ⟨a, hi, rfl⟩ | ⟨kind, -, rfl⟩ |
    ⟨k, v, -, rfl⟩ | ⟨hi, rfl⟩ | ⟨hi, rfl⟩ | ⟨hi, -, rfl⟩ | ⟨k, v, -, -, rfl⟩ | ⟨-, rfl⟩
  · rcases State.addressed_drive_cases hd hd' with rfl | rfl
    · exact .inl rfl
    · cases hp : acceptedPeriod s.cfg d f with
      | none => exact .inl (by rw [noteOnDrive_of_none hp])
      | some p => exact .inr (.inl ⟨a, f, p, hi, hp, by rw [noteOnDrive_of_some hp]⟩)
  · exact (State.addressed_drive_cases hd hd').imp (congrArg Drive.tone) fun heq =>
      .inr ⟨by rw [heq]; rfl, .inl ⟨a, .inl hi⟩⟩
  · exact (State.addressed_drive_cases hd hd').imp (congrArg Drive.tone) fun heq =>
      .inr ⟨by rw [heq]; rfl, .inl ⟨a, .inr hi⟩⟩
  · exact .inl (kept (by rw [State.unsupported_frame]) hd')
  · exact .inl (kept (by rw [State.setLine_drives]) hd')
  · exact (of_halt s.flush_silencesByHalt hd').imp_right fun ⟨hsil, hhalt⟩ =>
      .inr ⟨hsil, .inr (.inr ⟨.inl hi, hhalt⟩)⟩
  · exact (of_halt s.tick_silencesByHalt hd').imp_right fun ⟨hsil, hhalt⟩ =>
      .inr ⟨hsil, .inr (.inr ⟨.inr hi, hhalt⟩)⟩
  · refine .inr (.inr ⟨?_, .inr (.inl hi)⟩)
    rw [List.eq_of_mem_replicate (List.mem_of_getElem? hd')]
    rfl
  · exact .inl (kept (by rw [State.shiftBit_eq]) hd')
  · exact .inl (kept (by rw [State.latch_eq]) hd')

theorem Drive.silent_eq_true_iff (dr : Drive) : dr.silent = true ↔ dr.tone = .silent := by
  simp [Drive.silent]

theorem Drive.silent_eq_false_iff (dr : Drive) : dr.silent = false ↔ dr.tone ≠ .silent := by
  simp [Drive.silent]

/-- Settles O45: each flag by the lemma that says what an operation can make of it. -/
theorem flagsChangeOnlyByTheirRules : Obligations.FlagsChangeOnlyByTheirRules := by
  intro i s t h
  refine ⟨fun hh hh' => ?_, fun hh hh' => ?_, fun hd hd' => exec_dirty_set hd hd' h,
    fun hd hd' => ?_, fun d dr dr' hd hd' => ⟨fun hsil hact => ?_, fun hact hsil => ?_⟩⟩
  · rcases exec_halted_cases h with ⟨hi, hsame | ⟨ho, -⟩⟩ | ⟨-, hclear⟩ | hsame
    · rw [hsame, hh] at hh'; cases hh'
    · exact ⟨hi, ho⟩
    · rw [hclear] at hh'; cases hh'
    · rw [hsame, hh] at hh'; cases hh'
  · rcases exec_halted_cases h with ⟨-, hsame | ⟨-, hset⟩⟩ | ⟨hi, -⟩ | hsame
    · rw [hsame, hh] at hh'; cases hh'
    · rw [hset] at hh'; cases hh'
    · exact hi
    · rw [hsame, hh] at hh'; cases hh'
  · rcases exec_dirty_mono hd h with hset | rfl | ⟨ho, hi⟩
    · rw [hset] at hd'; cases hd'
    · rw [exec_init_next h] at hd'; exact .inr ⟨rfl, hd'⟩
    · exact .inl ⟨hi, ho⟩
  · rw [Drive.silent_eq_true_iff] at hsil
    rw [Drive.silent_eq_false_iff] at hact
    rcases exec_tone_cases h hd hd' with hsame | ⟨a, f, p, hi, hp, -⟩ | ⟨hsil', -⟩
    · exact absurd (hsame.trans hsil) hact
    · exact ⟨a, f, p, hi, hp⟩
    · exact absurd hsil' hact
  · rw [Drive.silent_eq_true_iff] at hsil
    rw [Drive.silent_eq_false_iff] at hact
    rcases exec_tone_cases h hd hd' with hsame | ⟨a, f, p, -, -, hp⟩ | ⟨-, hcause⟩
    · exact absurd (hsame.symm.trans hsil) hact
    · rw [hp] at hsil; cases hsil
    · exact hcause

/-! ### Which operation writes what -/

/-- What can write the bank (spec/70_reset_and_hazards.md, ownership). -/
theorem exec_bank_cases {i : Instr} {s t : State} (h : exec i s = .next t) :
    t.bank = s.bank ∨ (∃ k v, i = .setLine k v) ∨ i = .tick ∨ i = .init := by
  rcases exec_cases h with ⟨a, f, -, rfl⟩ | ⟨a, -, rfl⟩ | ⟨a, -, rfl⟩ | ⟨kind, -, rfl⟩ |
    ⟨k, v, hi, -⟩ | ⟨-, rfl⟩ | ⟨hi, -⟩ | ⟨hi, -, -⟩ | ⟨k, v, -, -, rfl⟩ | ⟨-, rfl⟩
  · exact .inl (by rw [State.addressed_frame])
  · exact .inl (by rw [State.addressed_frame])
  · exact .inl (by rw [State.addressed_frame])
  · exact .inl (by rw [State.unsupported_frame])
  · exact .inr (.inl ⟨k, v, hi⟩)
  · exact .inl s.flush_bank
  · exact .inr (.inr (.inl hi))
  · exact .inr (.inr (.inr hi))
  · exact .inl (by rw [State.shiftBit_eq])
  · exact .inl (by rw [State.latch_eq])

/-- An addressed command whose write per target is of TONE alone writes TONE alone. -/
theorem State.addressed_writes_tone {s : State} {a : Addr} {f : Nat → Drive → Drive}
    (hf : ∀ d dr, f d dr = { dr with tone := (f d dr).tone }) {d : Nat} {dr dr' : Drive}
    (hd : s.drives[d]? = some dr) (hd' : (s.addressed a f).drives[d]? = some dr') :
    dr' = { dr with tone := dr'.tone } := by
  rcases State.addressed_drive_cases hd hd' with rfl | rfl
  · rfl
  · exact hf d dr

theorem noteOnDrive_writes_tone (c : Config) (f d : Nat) (dr : Drive) :
    noteOnDrive c f d dr = { dr with tone := (noteOnDrive c f d dr).tone } := by
  cases hp : acceptedPeriod c d f with
  | none => rw [noteOnDrive_of_none hp]
  | some p => rw [noteOnDrive_of_some hp]

/-- The operations that write no record of the drive table (rule R25). -/
theorem exec_keeps_drives {i : Instr} {s t : State} (h : exec i s = .next t)
    (hi : i.unsupportedKind ≠ none ∨ (∃ k v, i = .setLine k v) ∨ (∃ k v, i = .shiftBit k v) ∨
      i = .latch) : t.drives = s.drives := by
  rcases hi with hk | ⟨k, v, rfl⟩ | ⟨k, v, rfl⟩ | rfl
  · obtain ⟨kind, hk⟩ := Option.ne_none_iff_exists'.1 hk
    rw [exec_of_unsupportedKind hk] at h
    cases h
    rw [State.unsupported_frame]
  · cases h
    exact s.setLine_drives k v
  · rcases Nat.lt_or_ge k s.cfg.nSeg with hlt | hge
    · rw [exec_shiftBit_of_lt v hlt] at h
      cases h
      rw [State.shiftBit_eq]
    · rw [exec_shiftBit_of_ge v hge] at h
      cases h
  · cases h
    rw [State.latch_eq]

/-- Settles O46: TONE by the two commands that write it, the rest by the frames of the operations. -/
theorem eachOperationWritesOnlyItsOwnFields : Obligations.EachOperationWritesOnlyItsOwnFields := by
  intro i s t h
  refine ⟨?_, exec_keeps_drives h, ?_, ?_, fun hb => (exec_bank_cases h).resolve_left hb⟩
  · rintro (⟨a, f, rfl⟩ | ⟨a, rfl⟩) d dr dr' hd hd'
    · cases h
      exact State.addressed_writes_tone (noteOnDrive_writes_tone s.cfg f) hd hd'
    · cases h
      exact State.addressed_writes_tone (fun _ _ => rfl) hd hd'
  · rintro rfl ho
    cases h
    rw [State.flush_frame ho]
  · rintro rfl ho
    cases h
    rcases s.tick_silencesByHalt with hsame | ⟨ho', -⟩
    · exact hsame
    · rw [ho] at ho'; cases ho'

end Sys2Proof.Machine
end

-- ==== Proofs: INIT and the other inputs ====
section
/-! INIT (spec/70_reset_and_hazards.md), and what a step does with each input
(spec/20_memory.md rule R69). -/

namespace Sys2Proof.Machine

/-- Settles O42: INIT writes `State.afterInit` of the state's own configuration. -/
theorem initSetsTheInitialState : Obligations.InitSetsTheInitialState := by
  intro s hv
  have hstart : s.cfg.startDir = .fwd := by
    obtain ⟨-, -, -, -, -, -, -, hdir, -⟩ := hv
    exact hdir
  obtain ⟨hdrives, -, hchain⟩ := State.initialise_shaped hv
  refine ⟨s.initialise, exec_init_of_valid hv, rfl, rfl, rfl, hdrives, fun dr hd => ?_, rfl, rfl, rfl,
    rfl, rfl, rfl, hchain, fun g hg => ?_⟩
  · rw [List.eq_of_mem_replicate hd, Drive.initial, hstart]
  · obtain ⟨seg, -, rfl⟩ := List.mem_map.1 hg
    exact ⟨rfl, rfl, rfl⟩

/-- Settles O43: the configuration check of INIT. -/
theorem initRefusesABadConfiguration : Obligations.InitRefusesABadConfiguration := fun _ =>
  exec_init_of_invalid

/-- Settles O51: INIT's state is sound, and no FLUSH has completed in it. -/
theorem resetStateIsSound : Obligations.ResetStateIsSound :=
  ⟨fun c draw outOk inputs hv =>
      ⟨State.afterInit_sound hv draw outOk inputs, State.afterInit_outputsWhole c draw outOk inputs⟩,
    State.afterInit_sound (by decide) 0 true []⟩

/-! ### Steps -/

theorem step_of_decoded {s : State} {w : PortWord} {rest : List Input} {i : Instr}
    (hin : s.inputs = .word w :: rest) (hd : decode w = .ok i) : step s = exec i (s.withInputs rest) := by
  simp only [step, hin, hd]

theorem step_of_not_decoded {s : State} {w : PortWord} {rest : List Input} {r : DecodeReject}
    (hin : s.inputs = .word w :: rest) (hd : decode w = .error r) :
    step s = .next (s.withInputs rest) := by
  simp only [step, hin, hd]

/-- A table word that decodes stands on a port, where it decodes to the same operation. -/
theorem decodeTableWord_eq_some {nbits w : Nat} {i : Instr} (h : decodeTableWord nbits w = some i) :
    ∃ pw, tableWord nbits w = some pw ∧ decode pw = .ok i := by
  cases hp : tableWord nbits w with
  | none => simp [decodeTableWord, hp] at h
  | some pw =>
    refine ⟨pw, rfl, ?_⟩
    cases hd : decode pw with
    | ok j => simpa [decodeTableWord, hp, hd, Except.toOption] using h
    | error r => simp [decodeTableWord, hp, hd, Except.toOption] at h

/-- Settles O48: a placed table word is the head of the list of inputs. -/
theorem stepRunsTheDecodedOperation : Obligations.StepRunsTheDecodedOperation := by
  refine ⟨fun s w rest i => step_of_decoded, fun s nbits w i h => ?_⟩
  obtain ⟨pw, hp, hd⟩ := decodeTableWord_eq_some h
  have hplaced : s.withFetchWord nbits w = s.withInputs (.word pw :: s.inputs) := by
    rw [State.withFetchWord, hp]
  rw [hplaced, step_of_decoded (s.withInputs_inputs _) hd]
  rfl

/-- Settles O49: the two cases of what the decoder logged. -/
theorem droppedFramesLeaveTheBlockAsItIs : Obligations.DroppedFramesLeaveTheBlockAsItIs := by
  intro s e logged rest hin
  refine ⟨(s.withInputs rest).frameDropped e logged, by rw [step, hin], ?_, ?_⟩
  · rw [State.frameDropped_frame]; rfl
  · cases logged with
    | true => rfl
    | false => exact (List.append_nil _).symm

/-- Settles O50: one equation of `step` per input; a strobe at 0 does not decode. -/
theorem stepsWithoutAnOperation : Obligations.StepsWithoutAnOperation := by
  refine ⟨fun s level rest hin => by rw [step, hin]; rfl, fun s rest hin => ?_,
    fun s hin => by rw [step, hin]⟩
  rcases hin with hin | hin
  · exact step_of_not_decoded hin rfl
  · exact step_of_not_decoded hin rfl

end Sys2Proof.Machine
end

-- ==== Proofs: runs of TICKs ====
section
/-! Runs of TICKs (spec/41_scheduler_tick.md section 3): `ticks n` iterates one TICK, so each law is an
induction over n with the drive's record and its step line as the invariant. -/

namespace Sys2Proof.Machine

theorem ticks_eq (n : Nat) (s : State) : ticks n s = .next (State.tick^[n] s) := by
  induction n generalizing s with
  | zero => rfl
  | succ n ih => exact ih s.tick

/-! ### A silent drive -/

/-- A TICK keeps a silent drive's record, also when the halt silences every drive. -/
theorem State.tick_drive_of_silent {s : State} (hs : s.Sound) {d : Nat} {dr : Drive}
    (hd : s.drives[d]? = some dr) (hsilent : dr.tone = .silent) : s.tick.drives[d]? = some dr := by
  cases hh : s.halted with
  | true => rwa [State.tick_of_halted hh]
  | false =>
    obtain ⟨dc, hc⟩ := hs.exists_config hd
    obtain ⟨tone, ht⟩ := State.tick_drive hh hc hd
    rw [Drive.ticked_of_silent _ hsilent] at ht
    have htone : tone = dr.tone := by
      rcases exec_tone_cases (i := .tick) rfl hd ht with hsame | ⟨a, f, p, hi, -⟩ | ⟨hnow, -⟩
      · exact hsame
      · cases hi
      · exact hnow.trans hsilent.symm
    rw [ht, htone]

theorem State.tick_lineStep_of_silent {s : State} (hs : s.Sound) {d : Nat} {dc : DriveConfig}
    {dr : Drive} (hc : s.cfg.drives[d]? = some dc) (hd : s.drives[d]? = some dr)
    (hsilent : dr.tone = .silent) : s.tick.lineAt dc.lineStep = s.lineAt dc.lineStep := by
  cases hh : s.halted with
  | true => rw [State.tick_of_halted hh]
  | false =>
    rw [(State.tick_lines hs hh hc hd).1, (Drive.steps_eq_false_iff dr).2 (.inl hsilent),
      Bool.xor_false]

/-- Settles O31: a TICK keeps the drive's record and its step line, and leaves the state sound. -/
theorem silentDriveStaysStill : Obligations.SilentDriveStaysStill := by
  intro s d n dc dr hs hc hd hsilent
  refine ⟨_, ticks_eq n s, ?_⟩
  induction n generalizing s with
  | zero => exact ⟨hd, rfl⟩
  | succ n ih =>
    obtain ⟨hdrive, hline⟩ := ih s.tick hs.tick (by rwa [s.tick_sameSizes.cfg])
      (State.tick_drive_of_silent hs hd hsilent)
    exact ⟨hdrive, hline.trans (State.tick_lineStep_of_silent hs hc hd hsilent)⟩

/-! ### A drive that plays -/

/-- A sound running state with the output path available: what a run of TICKs keeps. -/
structure State.Runs (s : State) : Prop where
  sound : s.Sound
  running : s.halted = false
  outOk : s.outOk = true

theorem State.Runs.tick {s : State} (h : s.Runs) : s.tick.Runs := by
  obtain ⟨_, chain, added, -, ht, -⟩ := State.tick_of_outOk h.running h.outOk
  refine ⟨h.sound.tick, ?_, ?_⟩
  · rw [ht]; exact h.running
  · rw [ht]; exact h.outOk

/-- The run is of one configuration. -/
theorem State.Runs.iterate {s : State} (h : s.Runs) (n : Nat) :
    (State.tick^[n] s).Runs ∧ (State.tick^[n] s).cfg = s.cfg := by
  induction n with
  | zero => exact ⟨h, rfl⟩
  | succ n ih =>
    obtain ⟨hruns, hcfg⟩ := ih
    rw [Function.iterate_succ_apply']
    exact ⟨hruns.tick, (State.tick_sameSizes _).cfg.trans hcfg⟩

/-- One more TICK: the drive is ticked, and its step line is toggled at a step event. -/
theorem State.Runs.iterate_succ {s : State} (h : s.Runs) {d : Nat} {dc : DriveConfig}
    (hc : s.cfg.drives[d]? = some dc) {n : Nat} {dr : Drive}
    (hd : (State.tick^[n] s).drives[d]? = some dr) :
    (State.tick^[n + 1] s).drives[d]? = some (dr.ticked dc.maxPos) ∧
    (State.tick^[n + 1] s).lineAt dc.lineStep
      = ((State.tick^[n] s).lineAt dc.lineStep ^^ dr.steps) := by
  obtain ⟨hruns, hcfg⟩ := h.iterate n
  rw [Function.iterate_succ_apply']
  have hc' : (State.tick^[n] s).cfg.drives[d]? = some dc := hcfg ▸ hc
  exact ⟨by rw [State.tick_drive_of_outOk hruns.running hruns.outOk hc', hd, Option.map_some],
    (State.tick_lines hruns.sound hruns.running hc' hd).1⟩

theorem Drive.steps_of_lt {dr : Drive} {p : Nat} (h : dr.tone = .active p) (hlt : dr.cnt + 1 < p) :
    dr.steps = false := (Drive.steps_eq_false_iff dr).2 (.inr ⟨p, h, hlt⟩)

/-- Until the count reaches the period a drive counts, and its step line stays (rule R152). -/
theorem State.Runs.counts {s : State} (h : s.Runs) {d p : Nat} {dc : DriveConfig} {dr : Drive}
    (hc : s.cfg.drives[d]? = some dc) (hd : s.drives[d]? = some dr) (hp : dr.tone = .active p)
    {n : Nat} (hn : n < max 1 (p - dr.cnt)) :
    (State.tick^[n] s).drives[d]? = some { dr with cnt := dr.cnt + n } ∧
    (State.tick^[n] s).lineAt dc.lineStep = s.lineAt dc.lineStep := by
  induction n with
  | zero => exact ⟨hd, rfl⟩
  | succ n ih =>
    obtain ⟨hdrive, hline⟩ := ih (by omega)
    obtain ⟨hdrive', hline'⟩ := h.iterate_succ hc hdrive
    have hlt : dr.cnt + n + 1 < p := by omega
    have hp' : Drive.tone { dr with cnt := dr.cnt + n } = .active p := hp
    rw [Drive.ticked_of_lt _ hp' hlt] at hdrive'
    rw [Drive.steps_of_lt hp' hlt, Bool.xor_false, hline] at hline'
    exact ⟨hdrive', hline'⟩

/-- Settles O30: the drive counts up to the period, and the next TICK is its step event. -/
theorem firstStepComesWithinThePeriod : Obligations.FirstStepComesWithinThePeriod := by
  intro s d p dc dr hs hh ho hc hd hp
  have hruns : s.Runs := ⟨hs, hh, ho⟩
  refine ⟨fun n hn => ⟨_, ticks_eq n s, (hruns.counts hc hd hp hn).1⟩, ?_⟩
  obtain ⟨n, hn⟩ : ∃ n, max 1 (p - dr.cnt) = n + 1 := ⟨max 1 (p - dr.cnt) - 1, by omega⟩
  rw [hn]
  obtain ⟨hdrive, hline⟩ := hruns.counts hc hd hp (n := n) (by omega)
  obtain ⟨hdrive', hline'⟩ := hruns.iterate_succ hc hdrive
  have hsteps : Drive.steps { dr with cnt := dr.cnt + n } = true :=
    (Drive.steps_iff (dr := { dr with cnt := dr.cnt + n }) hp).2 (by dsimp only; omega)
  rw [Drive.ticked_of_steps _ hsteps] at hdrive'
  rw [hsteps, Bool.xor_true, hline] at hline'
  refine ⟨_, _, ticks_eq _ s, hdrive', rfl, ?_, hline'⟩
  have hpos : (Drive.stepEvent dc.maxPos { dr with cnt := dr.cnt + n }).pos
      = (dr.stepEvent dc.maxPos).pos := rfl
  obtain ⟨hfwd, hrev⟩ := Drive.stepEvent_pos (hs.driveSound hc hd) dc.maxPos
  rw [hpos]
  cases hdir : dr.dir with
  | fwd => have := hfwd hdir; omega
  | rev => have := hrev hdir; omega

/-! ### The triangle wave (rule R159) -/

/-- One more: the remainder grows, or it wraps and the quotient grows. -/
theorem succ_div_mod_cases {p : Nat} (hp : 0 < p) (n : Nat) :
    (n % p + 1 < p ∧ (n + 1) / p = n / p ∧ (n + 1) % p = n % p + 1) ∨
    (n % p + 1 = p ∧ (n + 1) / p = n / p + 1 ∧ (n + 1) % p = 0) := by
  have hn := Nat.mod_add_div n p
  rcases Nat.lt_or_eq_of_le (Nat.succ_le_of_lt (Nat.mod_lt n hp)) with hlt | heq
  · exact .inl ⟨hlt, (Nat.div_mod_unique hp).2 ⟨by omega, hlt⟩⟩
  · exact .inr ⟨heq, (Nat.div_mod_unique hp).2 ⟨by rw [Nat.mul_succ]; omega, hp⟩⟩

/-- The rising half of the wave. -/
theorem triangle_rising {M k : Nat} (h : k % (2 * M) < M) :
    trianglePos M k = k % (2 * M) ∧ triangleDir M k = .fwd :=
  ⟨if_pos h.le, if_pos h⟩

/-- The falling half; at its top the direction has turned already (rule R154). -/
theorem triangle_falling {M k : Nat} (h : M ≤ k % (2 * M)) :
    trianglePos M k = 2 * M - k % (2 * M) ∧ triangleDir M k = .rev := by
  refine ⟨?_, if_neg (Nat.not_lt.2 h)⟩
  unfold trianglePos
  split
  · omega
  · rfl

/-- A step event moves the drive one place on along the triangle wave. -/
theorem triangle_stepEvent {M : Nat} (hM : 1 ≤ M) (k p n : Nat) :
    Drive.stepEvent M ⟨trianglePos M k, triangleDir M k, .active p, n⟩
      = ⟨trianglePos M (k + 1), triangleDir M (k + 1), .active p, 0⟩ := by
  have hcases := succ_div_mod_cases (p := 2 * M) (by omega) k
  rcases Nat.lt_or_ge (k % (2 * M)) M with hr | hr
  · obtain ⟨hpos, hdir⟩ := triangle_rising hr
    have hnext : (k + 1) % (2 * M) = k % (2 * M) + 1 := by omega
    simp only [Drive.stepEvent, Drive.moved, hpos, hdir]
    rcases Nat.lt_or_ge ((k + 1) % (2 * M)) M with hr' | hr'
    · obtain ⟨hpos', hdir'⟩ := triangle_rising hr'
      rw [hpos', hdir', hnext, if_neg (by omega)]
    · obtain ⟨hpos', hdir'⟩ := triangle_falling hr'
      rw [hpos', hdir', if_pos (by omega), hnext]
      congr 1
      omega
  · obtain ⟨hpos, hdir⟩ := triangle_falling hr
    simp only [Drive.stepEvent, Drive.moved, hpos, hdir]
    rcases hcases with ⟨hlt, -, hnext⟩ | ⟨htop, -, hnext⟩
    · obtain ⟨hpos', hdir'⟩ := triangle_falling (M := M) (k := k + 1) (by omega)
      rw [hpos', hdir', if_neg (by omega), hnext]
      rfl
    · obtain ⟨hpos', hdir'⟩ := triangle_rising (M := M) (k := k + 1) (by omega)
      rw [hpos', hdir', if_pos (by omega), hnext]
      congr 1
      omega

/-- The square wave of the step line: one more step toggles it. -/
theorem odd_succ (q : Nat) : decide ((q + 1) % 2 = 1) = (decide (q % 2 = 1) ^^ true) := by
  rcases Nat.mod_two_eq_zero_or_one q with h | h <;> simp [Nat.add_mod, h]

/-- The drive and its step line after n TICKs: `n / p` step events along the two waves, `n % p` counted. -/
theorem State.Runs.triangle {s : State} (h : s.Runs) {d p : Nat} {dc : DriveConfig}
    (hc : s.cfg.drives[d]? = some dc) (hd : s.drives[d]? = some ⟨0, .fwd, .active p, 0⟩) (n : Nat) :
    (State.tick^[n] s).drives[d]?
      = some ⟨trianglePos dc.maxPos (n / p), triangleDir dc.maxPos (n / p), .active p, n % p⟩ ∧
    (State.tick^[n] s).lineAt dc.lineStep = (s.lineAt dc.lineStep ^^ decide (n / p % 2 = 1)) := by
  obtain ⟨-, -, hM, -⟩ := config_drive h.sound.config hc
  have hp : 0 < p := by
    obtain ⟨-, -, -, -, htone | ⟨hpos, -⟩⟩ := h.sound.driveSound hc hd
    · cases htone
    · exact hpos
  induction n with
  | zero =>
    obtain ⟨hpos, hdir⟩ := triangle_rising (M := dc.maxPos) (k := 0) (by rwa [Nat.zero_mod])
    rw [Nat.zero_div, Nat.zero_mod, hpos, hdir, Nat.zero_mod]
    exact ⟨hd, (Bool.xor_false _).symm⟩
  | succ n ih =>
    obtain ⟨hdrive, hline⟩ := ih
    obtain ⟨hdrive', hline'⟩ := h.iterate_succ hc hdrive
    rcases succ_div_mod_cases hp n with ⟨hlt, hdiv, hmod⟩ | ⟨heq, hdiv, hmod⟩
    · rw [Drive.ticked_of_lt _ rfl hlt] at hdrive'
      rw [Drive.steps_of_lt rfl hlt, Bool.xor_false, hline] at hline'
      rw [hdiv, hmod]
      exact ⟨hdrive', hline'⟩
    · have hsteps := (Drive.steps_iff (dr := ⟨trianglePos dc.maxPos (n / p),
        triangleDir dc.maxPos (n / p), .active p, n % p⟩) rfl).2 heq.ge
      rw [Drive.ticked_of_steps _ hsteps, triangle_stepEvent hM] at hdrive'
      rw [hsteps, hline, Bool.xor_assoc, ← odd_succ] at hline'
      rw [hdiv, hmod]
      exact ⟨hdrive', hline'⟩

/-- Settles O29: the invariant `State.Runs.triangle` of a run. -/
theorem playedToneIsATriangleWave : Obligations.PlayedToneIsATriangleWave := by
  intro s d p n dc hs hh ho hc hd
  have hruns : s.Runs := ⟨hs, hh, ho⟩
  exact ⟨_, ticks_eq n s, (hruns.iterate n).1.running, hruns.triangle hc hd n⟩

end Sys2Proof.Machine
end
